-- ==== Sys2Proof/Word.lean ====
section
/-! DEFINITION. The words of the hardware: a byte, and the two command words of spec/30_encoding.md. -/

namespace Sys2Proof

/-- A byte, 8 bits, unsigned (00_scope.md section 6). -/
abbrev Byte := BitVec 8

/-- An ENC command word, `cmd[9:0]` (R57). -/
abbrev EncWord := BitVec 10

/-- A DEC command word, `cmd[8:0]` (R59). -/
abbrev DecWord := BitVec 9

end Sys2Proof
end

