-- ==== Sys2Proof/Config.lean ====
section
/-! DEFINITION. What is fixed for one machine: the protocol constants of R4, the two capacities (open parameters, R7)
and the free values the spec leaves open (the bytes a buffer holds at power-on, R24; `rsp_len` beside no completion, R59). -/

namespace Sys2Proof.Config

/-- START, the frame's first byte (R4). -/
def startByte : Byte := 0x7F

/-- END, the frame's last byte (R4). -/
def endByte : Byte := 0x7E

/-- ESCAPE, the byte that introduces an escape pair (R4). -/
def escapeByte : Byte := 0x7D

/-- XOR_MASK, applied to a special byte's value (R4). -/
def xorMask : Byte := 0x20

/-- ENC_CAP, the encoder buffer's capacity in bytes: an OPEN parameter, any natural, 0 allowed (R7, R22, D7).
It has no body: nothing can be proved of its value (log entry 1). -/
opaque encCap : Nat

/-- DEC_CAP, the decoder buffer's capacity in bytes: an OPEN parameter, independent of `encCap` (R7, R22, D7; log entry 1). -/
opaque decCap : Nat

/-- FREE VALUE: what `ENC.buf[i]` holds after power-on, before anything is written there (R24, K-2; log entry 3). -/
opaque encPowerOnByte : Nat → Byte

/-- FREE VALUE: what `DEC.buf[i]` holds after power-on, before anything is written there (R24, K-2; log entry 3). -/
opaque decPowerOnByte : Nat → Byte

/-- FREE VALUE: what `rsp_len` carries beside a status other than 01, by the status; R59 gives it a meaning with status 01
only (log entry 21). -/
opaque rspLenUnused : BitVec 2 → Nat

end Sys2Proof.Config
end

