-- ==== Sys2Proof/Machine/Operands.lean ====
section
/-! DEFINITION. The one operand the commands have, a byte: its classification (R4, R54), the mask (R62), the escaping
function and the wire format (R50, R51, R52). -/

namespace Sys2Proof

/-- `is_special(b)`: b is START, END or ESCAPE (R4). -/
def isSpecial (b : Byte) : Bool :=
  b == Config.startByte || b == Config.endByte || b == Config.escapeByte

/-- `XOR_MASK xor b`, the only transformation of an operand (R62): masks a special byte, and unmasks an escape code. -/
def maskByte (b : Byte) : Byte := b ^^^ Config.xorMask

/-- The byte classes on the wire (R54). -/
inductive ByteClass where
  | start
  | endd
  | esc
  | escCode
  | data
deriving DecidableEq, Repr

/-- The class of a received byte (R54): exactly one, tested by equality. -/
def classify (b : Byte) : ByteClass :=
  if b == Config.startByte then .start
  else if b == Config.endByte then .endd
  else if b == Config.escapeByte then .esc
  else if isSpecial (maskByte b) then .escCode
  else .data

/-- `e(x)`: the bytes payload byte `x` occupies on the wire (R51). -/
def escapeSeq (x : Byte) : List Byte :=
  if isSpecial x then [Config.escapeByte, maskByte x] else [x]

/-- `frame(P)`: START, the escaped payload, END (R50). -/
def frameOf (payload : List Byte) : List Byte :=
  Config.startByte :: (payload.flatMap escapeSeq ++ [Config.endByte])

/-- `s(P)`: how many bytes of the payload are special (R52). -/
def specialCount (payload : List Byte) : Nat := payload.countP isSpecial

end Sys2Proof
end

