-- ==== Sys2Proof/Syntax.lean ====
section
/-! DEFINITION. The syntax: one constructor of `Instr` per row of spec/opcode_table.json, and what a host can present at
the hardware's inputs. -/

namespace Sys2Proof

/-- The instructions: one constructor per row of the opcode table. A `data` argument is the data field of a command that
ignores it (R61); it is kept so that no bit of a command word is lost. The rows ENC.WRITE and DEC.RX are the group rows
that name a whole command; the WIRE rows are the units of the wire format (log entries 8 and 10). -/
inductive Instr where
  /-- ENC.RESET (R70). -/
  | encReset (data : Byte)
  /-- ENC.START (R71). -/
  | encStart (data : Byte)
  /-- ENC.WRITE.SPECIAL_7D: WRITE of 0x7D (R73). -/
  | encWriteSpecial7D
  /-- ENC.WRITE.SPECIAL_7E: WRITE of 0x7E (R73). -/
  | encWriteSpecial7E
  /-- ENC.WRITE.SPECIAL_7F: WRITE of 0x7F (R73). -/
  | encWriteSpecial7F
  /-- ENC.WRITE.ORDINARY: WRITE of a byte that is not special (R74). -/
  | encWriteOrdinary (b : Byte)
  /-- ENC.WRITE: the command as a whole (R72). -/
  | encWrite (b : Byte)
  /-- ENC.END (R75). -/
  | encEnd (data : Byte)
  /-- DEC.RESET (R90). -/
  | decReset (data : Byte)
  /-- DEC.RX.START: RX of 0x7F (R92). -/
  | decRxStart
  /-- DEC.RX.END: RX of 0x7E (R91: R93, R95, R97, R98 by state). -/
  | decRxEnd
  /-- DEC.RX.ESC: RX of 0x7D (R91: R93, R94, R97, R98 by state). -/
  | decRxEsc
  /-- DEC.RX.ESCCODE_5D: RX of 0x5D (R91: R93, R96, R97, R98 by state). -/
  | decRxEsccode5D
  /-- DEC.RX.ESCCODE_5E: RX of 0x5E (R91: R93, R96, R97, R98 by state). -/
  | decRxEsccode5E
  /-- DEC.RX.ESCCODE_5F: RX of 0x5F (R91: R93, R96, R97, R98 by state). -/
  | decRxEsccode5F
  /-- DEC.RX.DATA: RX of any byte of class DATA (R54; R91: R93, R96, R97, R98 by state). -/
  | decRxData (b : Byte)
  /-- DEC.RX: the decode step as a whole (R91). -/
  | decRx (b : Byte)
  /-- WIRE.START: the frame's start delimiter on the wire (R50). -/
  | wireStart
  /-- WIRE.END: the frame's end delimiter on the wire (R50). -/
  | wireEnd
  /-- WIRE.E_7D: `e(0x7D)`, two bytes on the wire (R51). -/
  | wireE7D
  /-- WIRE.E_7E: `e(0x7E)`, two bytes on the wire (R51). -/
  | wireE7E
  /-- WIRE.E_7F: `e(0x7F)`, two bytes on the wire (R51). -/
  | wireE7F
  /-- WIRE.E_ORDINARY: `e(x) = [x]` for an ordinary byte (R51). -/
  | wireEOrdinary (x : Byte)
deriving DecidableEq, Repr

/-- The blocks (R2). -/
inductive Block where
  | enc
  | dec
deriving DecidableEq, Repr

/-- ENC's inputs in one transaction: the reset line, and the command word (`cmd_valid = 1` when there is one) (R57, R150, D2). -/
structure EncPort where
  rst : Bool
  cmd : Option EncWord
deriving DecidableEq, Repr

/-- DEC's inputs in one transaction: the reset line, and the command word (`cmd_valid = 1` when there is one) (R59, R150, D2). -/
structure DecPort where
  rst : Bool
  cmd : Option DecWord
deriving DecidableEq, Repr

/-- What the host presents to the hardware at one time (R5, R41; log entries 4 and 6). -/
inductive Input where
  /-- The inputs of ENC in one transaction. -/
  | enc (p : EncPort)
  /-- The inputs of DEC in one transaction. -/
  | dec (p : DecPort)
  /-- Raw bytes the transport has received, first on the wire first, to be fed to DEC in stream order (R43). -/
  | line (bytes : List Byte)
deriving DecidableEq, Repr

/-- Why something presented is not an instruction. -/
inductive DecodeError where
  /-- Nothing is presented: `cmd_valid = 0`, or no byte on the line (R76, R99). -/
  | nothingPresented
  /-- The reset line is asserted: any command presented with it is dropped (R150, D19). -/
  | resetAsserted
  /-- The line ends after ESCAPE: the unit's second byte has not arrived (R55). -/
  | truncatedEscape
  /-- ESCAPE is followed by a byte that is no escape code (R56), so the two are no unit of the wire format. -/
  | notAnEscapePair (second : Byte)
  /-- A whole unit was read and bytes are left over. -/
  | trailingBytes
deriving DecidableEq, Repr

/-- What a decoder answers: an instruction and the bytes after it (none for a command word), or a rejection by name. -/
inductive Decoded where
  | instr (i : Instr) (rest : List Byte)
  | rejected (e : DecodeError)
deriving DecidableEq, Repr

/-- What one presentation asks of the machine. -/
inductive Action where
  /-- No command is presented (R76, R99). -/
  | idle
  /-- The reset line of a block is asserted (R150). -/
  | hardReset (block : Block)
  /-- A command is presented, or a unit of the line. -/
  | run (i : Instr)
deriving DecidableEq, Repr

end Sys2Proof
end

