-- ==== Sys2Proof/WellFormed.lean ====
section
/-! DEFINITION. Which terms of `Instr` are instructions of the table: the class rows admit only the bytes of their class. -/

namespace Sys2Proof

/-- The operand checks of the three catch-all rows (priority 2): the `data_use` column of the table.
Every other row admits every operand. -/
def Instr.WellFormed : Instr → Bool
  | .encReset _ => true
  | .encStart _ => true
  | .encWriteSpecial7D => true
  | .encWriteSpecial7E => true
  | .encWriteSpecial7F => true
  | .encWriteOrdinary b => !isSpecial b
  | .encWrite _ => true
  | .encEnd _ => true
  | .decReset _ => true
  | .decRxStart => true
  | .decRxEnd => true
  | .decRxEsc => true
  | .decRxEsccode5D => true
  | .decRxEsccode5E => true
  | .decRxEsccode5F => true
  | .decRxData b => classify b == .data
  | .decRx _ => true
  | .wireStart => true
  | .wireEnd => true
  | .wireE7D => true
  | .wireE7E => true
  | .wireE7F => true
  | .wireEOrdinary x => !isSpecial x

end Sys2Proof
end

