-- ==== Sys2Proof/Decode.lean ====
section
/-! DEFINITION. The decoder: ENC and DEC command words (R57, R59), units of the wire format (R50, R51, R55), by the
table's priorities (class rows before catch-all rows, 30_encoding.md section 5); what a presentation asks of the machine;
the encoder, from the same tables; and the host's table words. -/

namespace Sys2Proof

/-- The row that a first-match decoder reaches for a WRITE of `b`: the three SPECIAL rows, else ORDINARY (30_encoding.md section 5). -/
def encWriteRow (b : Byte) : Instr :=
  if b == 0x7D then .encWriteSpecial7D
  else if b == 0x7E then .encWriteSpecial7E
  else if b == 0x7F then .encWriteSpecial7F
  else .encWriteOrdinary b

/-- The row that a first-match decoder reaches for an RX of `b`: the six exact rows, else DATA (30_encoding.md section 5). -/
def decRxRow (b : Byte) : Instr :=
  if b == 0x7F then .decRxStart
  else if b == 0x7E then .decRxEnd
  else if b == 0x7D then .decRxEsc
  else if b == 0x5D then .decRxEsccode5D
  else if b == 0x5E then .decRxEsccode5E
  else if b == 0x5F then .decRxEsccode5F
  else .decRxData b

/-- The ENC command decoder: total, every word is legal (R57). -/
def decodeEnc (w : EncWord) : Instr :=
  let data : Byte := w.extractLsb' 0 8
  let op : BitVec 2 := w.extractLsb' 8 2
  if op == 0b00 then .encReset data
  else if op == 0b01 then .encStart data
  else if op == 0b10 then encWriteRow data
  else .encEnd data

/-- The DEC command decoder: total, every word is legal (R59). -/
def decodeDec (w : DecWord) : Instr :=
  let data : Byte := w.extractLsb' 0 8
  let op : BitVec 1 := w.extractLsb' 8 1
  if op == 0b0 then .decReset data else decRxRow data

/-- The unit whose second byte is `c`, after ESCAPE: an escape pair, or none (R51, R56). -/
def decodeEscapePair (c : Byte) (rest : List Byte) : Decoded :=
  if c == 0x5D then .instr .wireE7D rest
  else if c == 0x5E then .instr .wireE7E rest
  else if c == 0x5F then .instr .wireE7F rest
  else .rejected (.notAnEscapePair c)

/-- The first unit of the wire format on the line (R50, R51): the first byte alone tells how long the unit is (R55). -/
def decodeLine : List Byte → Decoded
  | [] => .rejected .nothingPresented
  | b :: rest =>
    if b == 0x7D then
      match rest with
      | [] => .rejected .truncatedEscape
      | c :: rest' => decodeEscapePair c rest'
    else if b == 0x7F then .instr .wireStart rest
    else if b == 0x7E then .instr .wireEnd rest
    else .instr (.wireEOrdinary b) rest

/-- A decoded line on which nothing may follow the unit. -/
def wholeUnit : Decoded → Decoded
  | .instr i [] => .instr i []
  | .instr _ (_ :: _) => .rejected .trailingBytes
  | .rejected e => .rejected e

/-- The decoder, total on whatever is presented; it rejects by name. -/
def decode : Input → Decoded
  | .enc ⟨true, _⟩ => .rejected .resetAsserted
  | .enc ⟨false, none⟩ => .rejected .nothingPresented
  | .enc ⟨false, some w⟩ => .instr (decodeEnc w) []
  | .dec ⟨true, _⟩ => .rejected .resetAsserted
  | .dec ⟨false, none⟩ => .rejected .nothingPresented
  | .dec ⟨false, some w⟩ => .instr (decodeDec w) []
  | .line bytes => wholeUnit (decodeLine bytes)

/-- Bytes left on the line stay at the head of what is presented. -/
def keepLine (bytes : List Byte) (rest : List Input) : List Input :=
  if bytes.isEmpty then rest else .line bytes :: rest

/-- The line's next unit, and what stays on the line. Bytes that form no unit of the wire format are not refused: the first
of them is fed to DEC by itself, as the transport feeds every byte (R43, R56; log entry 9). -/
def fetchLine (bytes : List Byte) (rest : List Input) : Action × List Input :=
  match bytes with
  | [] => (.idle, rest)
  | b :: more =>
    match decodeLine (b :: more) with
    | .instr i left => (.run i, keepLine left rest)
    | .rejected _ => (.run (decRxRow b), keepLine more rest)

/-- What the oldest presentation asks of the machine, and the presentations that remain (R41). Reset wins over a command
presented with it, and that command is dropped (R150, D19). -/
def fetch : List Input → Action × List Input
  | [] => (.idle, [])
  | .enc ⟨true, _⟩ :: rest => (.hardReset .enc, rest)
  | .enc ⟨false, none⟩ :: rest => (.idle, rest)
  | .enc ⟨false, some w⟩ :: rest => (.run (decodeEnc w), rest)
  | .dec ⟨true, _⟩ :: rest => (.hardReset .dec, rest)
  | .dec ⟨false, none⟩ :: rest => (.idle, rest)
  | .dec ⟨false, some w⟩ :: rest => (.run (decodeDec w), rest)
  | .line bytes :: rest => fetchLine bytes rest

/-! The encoder. -/

/-- An ENC command word, `{op[1:0], data[7:0]}` (R57). -/
def encWordOf (op : BitVec 2) (data : Byte) : EncWord := op ++ data

/-- A DEC command word, `{op, data[7:0]}` (R59). -/
def decWordOf (op : BitVec 1) (data : Byte) : DecWord := op ++ data

/-- A command word presented to ENC. -/
def presentEnc (w : EncWord) : Input := .enc ⟨false, some w⟩

/-- A command word presented to DEC. -/
def presentDec (w : DecWord) : Input := .dec ⟨false, some w⟩

/-- The words of an instruction, presented where they belong: the encoding column of the table. -/
def encode : Instr → Input
  | .encReset d => presentEnc (encWordOf 0b00 d)
  | .encStart d => presentEnc (encWordOf 0b01 d)
  | .encWriteSpecial7D => presentEnc (encWordOf 0b10 0x7D)
  | .encWriteSpecial7E => presentEnc (encWordOf 0b10 0x7E)
  | .encWriteSpecial7F => presentEnc (encWordOf 0b10 0x7F)
  | .encWriteOrdinary b => presentEnc (encWordOf 0b10 b)
  | .encWrite b => presentEnc (encWordOf 0b10 b)
  | .encEnd d => presentEnc (encWordOf 0b11 d)
  | .decReset d => presentDec (decWordOf 0b0 d)
  | .decRxStart => presentDec (decWordOf 0b1 0x7F)
  | .decRxEnd => presentDec (decWordOf 0b1 0x7E)
  | .decRxEsc => presentDec (decWordOf 0b1 0x7D)
  | .decRxEsccode5D => presentDec (decWordOf 0b1 0x5D)
  | .decRxEsccode5E => presentDec (decWordOf 0b1 0x5E)
  | .decRxEsccode5F => presentDec (decWordOf 0b1 0x5F)
  | .decRxData b => presentDec (decWordOf 0b1 b)
  | .decRx b => presentDec (decWordOf 0b1 b)
  | .wireStart => .line [0x7F]
  | .wireEnd => .line [0x7E]
  | .wireE7D => .line [0x7D, 0x5D]
  | .wireE7E => .line [0x7D, 0x5E]
  | .wireE7F => .line [0x7D, 0x5F]
  | .wireEOrdinary x => .line [x]

/-- The row a first-match decoder reaches for an instruction's words: the group rows ENC.WRITE and DEC.RX, whose priority
is last, are read as the class row of their operand (log entry 10). -/
def Instr.classRow : Instr → Instr
  | .encReset d => .encReset d
  | .encStart d => .encStart d
  | .encWriteSpecial7D => .encWriteSpecial7D
  | .encWriteSpecial7E => .encWriteSpecial7E
  | .encWriteSpecial7F => .encWriteSpecial7F
  | .encWriteOrdinary b => .encWriteOrdinary b
  | .encWrite b => encWriteRow b
  | .encEnd d => .encEnd d
  | .decReset d => .decReset d
  | .decRxStart => .decRxStart
  | .decRxEnd => .decRxEnd
  | .decRxEsc => .decRxEsc
  | .decRxEsccode5D => .decRxEsccode5D
  | .decRxEsccode5E => .decRxEsccode5E
  | .decRxEsccode5F => .decRxEsccode5F
  | .decRxData b => .decRxData b
  | .decRx b => decRxRow b
  | .wireStart => .wireStart
  | .wireEnd => .wireEnd
  | .wireE7D => .wireE7D
  | .wireE7E => .wireE7E
  | .wireE7F => .wireE7F
  | .wireEOrdinary x => .wireEOrdinary x

/-! The host's table words. -/

/-- Where a bare word of the opcode table is presented. The table numbers ENC, DEC and WIRE rows each from bit 0, so a word
alone does not say which port it is for; this is the model's rule (log entry 12). One byte is a wire byte. Of two bytes:
from 0x400 up, a wire pair, its first byte in the high bits (the table's note); from 0x200, an ENC word; below that, ENC's
canonical RESET and START words (R57) are ENC's, and every other word is DEC's. -/
def tableInput (nbits w : Nat) : Option Input :=
  if nbits ≤ 8 then
    if w < 0x100 then some (.line [BitVec.ofNat 8 w]) else none
  else if nbits ≤ 9 then
    if w < 0x200 then some (presentDec (BitVec.ofNat 9 w)) else none
  else if w < 0x200 && !(w == 0x000 || w == 0x100) && 10 < nbits then
    some (presentDec (BitVec.ofNat 9 w))
  else if w < 0x400 then some (presentEnc (BitVec.ofNat 10 w))
  else if w < 0x10000 && 10 < nbits then
    some (.line [BitVec.ofNat 8 (w / 0x100), BitVec.ofNat 8 w])
  else none

/-- The instruction this decoder reads from a table word. -/
def decodeTableWord (nbits w : Nat) : Option Instr :=
  match tableInput nbits w with
  | none => none
  | some input =>
    match decode input with
    | .instr i _ => some i
    | .rejected _ => none

end Sys2Proof
end

