-- ==== Sys2Proof/Machine/State.lean ====
section
/-! DEFINITION. The state of the hardware, as plain data: the two blocks (spec/10_state.md), the responses of the latest
step and what the host presents next; why a step can stop; and the state after reset (R24, R150). -/

namespace Sys2Proof.Machine

/-- A buffer's contents: (index, byte) cells, indices strictly rising. An index that is not listed has not been written
since power-on and holds no value the spec gives (R24, K-2; log entry 3). -/
abbrev Memory := List Host.Cell

/-- The decoder's states, the source's receiveState (R14). -/
inductive DecState where
  | awaitingStart
  | inMessage
  | inEscape
  | error
deriving DecidableEq, Repr

/-- The encoder block (R2): its capacity (a constant, R22), its length register (R10), its buffer (R11). -/
structure Enc where
  cap : Nat
  len : Nat
  buf : Memory
deriving DecidableEq, Repr

/-- The decoder block (R2): its capacity (a constant, R22), its length register (R12), its buffer (R13), its state register (R14). -/
structure Dec where
  cap : Nat
  len : Nat
  buf : Memory
  st : DecState
deriving DecidableEq, Repr

/-- ENC's responses (R58). -/
inductive EncRsp where
  | ok
  | fail
deriving DecidableEq, Repr

/-- DEC's responses (R100): message pending, message complete with the payload's length, decode error. -/
inductive DecRsp where
  | pending
  | complete (n : Nat)
  | error
deriving DecidableEq, Repr

/-- A response of one of the blocks. -/
inductive Rsp where
  | enc (r : EncRsp)
  | dec (r : DecRsp)
deriving DecidableEq, Repr

/-- Why the machine would stop with a fault: never. "No exceptions/panics are used anywhere in this design" and every
failure leaves a well-defined, continuable state (60_exceptions.md, R126, R128): nobody raises one, so there is no
constructor (log entry 20; safe: it could only make a model stop where the hardware goes on). -/
inductive Fault where
deriving DecidableEq, Repr

/-- Why something is refused. -/
inductive Refusal where
  /-- An instruction with no meaning yet; raised by arms of `exec` only, and none is left. Safe. -/
  | notModelled (mnemonic : String)
  /-- A host read at an index that is not below the capacity: "a model refuses such a read" (R38, D22, K-7). Raised by the
  read ports `Enc.readPort` and `Dec.readPort` only, never by a step. Safe. -/
  | readIndexOutOfRange (index : Nat)
deriving DecidableEq, Repr

/-- The state of the whole hardware. -/
structure State where
  /-- The encoder block. -/
  enc : Enc
  /-- The decoder block. -/
  dec : Dec
  /-- The model's own: the responses given in the latest step, in order, empty where it gave none (R21; log entry 5). -/
  rsp : List Rsp
  /-- The model's own: what the host presents next, oldest first (R41, R43; log entry 4). -/
  inputs : List Input
deriving DecidableEq, Repr

/-- The encoder after reset (R24). -/
def Enc.reset : Enc := { cap := Config.encCap, len := 0, buf := [] }

/-- The decoder after reset (R24). -/
def Dec.reset : Dec := { cap := Config.decCap, len := 0, buf := [], st := .awaitingStart }

/-- The hardware after power-on and reset (R24, R150): lengths 0, AwaitingStart, no buffer byte known, the capacities as
configured; no response given and nothing presented (log entries 5 and 13). -/
def State.reset : State := { enc := Enc.reset, dec := Dec.reset, rsp := [], inputs := [] }

end Sys2Proof.Machine
end

