-- ==== Sys2Proof/Machine/Ops.lean ====
section
/-! DEFINITION. The named operations: buffer reads and writes, the append of ENC, raising an error condition and
leaving it (spec/60_exceptions.md), the decode step of DEC (R91), the pseudo-instructions (R64), hardware reset (R150),
the host's read ports (R38), and how a block's new state and responses enter the machine's state. -/

namespace Sys2Proof.Machine

/-! Buffers (spec/20_memory.md). -/

/-- The byte last written at an index; none where nothing has been written since power-on. -/
def Memory.read (m : Memory) (i : Nat) : Option Byte :=
  match m with
  | [] => none
  | (j, c) :: rest => if i = j then some c else Memory.read rest i

/-- `MemWrite(BUF[i], 1, b)`, keeping the indices strictly rising. -/
def Memory.write (m : Memory) (i : Nat) (b : Byte) : Memory :=
  match m with
  | [] => [(i, b)]
  | (j, c) :: rest =>
    if i < j then (i, b) :: (j, c) :: rest
    else if i = j then (i, b) :: rest
    else (j, c) :: Memory.write rest i b

/-- `MemWrite(BUF[i], n, v)`: the bytes at consecutive indices, the first at the lowest (R33). -/
def Memory.writeAll (m : Memory) (i : Nat) (bytes : List Byte) : Memory :=
  match bytes with
  | [] => m
  | b :: rest => Memory.writeAll (m.write i b) (i + 1) rest

/-- The canonical form: indices strictly rising. No entry can equal what an unlisted index reads as, which is no value. -/
def Memory.wf (m : Memory) : Bool :=
  match m with
  | [] => true
  | (i, _) :: rest => rest.all (fun c => decide (i < c.1)) && Memory.wf rest

/-! Error conditions: taken within the failing step, nothing saved (R126). -/

/-- The causes (R120): a classification only, visible on no port (D14). -/
inductive Cause where
  | encNoSpace
  | decOverflow
  | decBadEscape
deriving DecidableEq, Repr

/-- `raise EncNoSpace`: the step responds fail and changes no state (R121). -/
def Enc.raiseNoSpace (e : Enc) : Enc × EncRsp := (e, .fail)

/-- `raise DecError(cause)`: the step responds error and sets `DEC.st <- Error`; nothing else changes (R122, R123). The
cause is not recorded (R120). -/
def Dec.raise (_cause : Cause) (d : Dec) : Dec × DecRsp := ({ d with st := .error }, .error)

/-- How Error is left by a START byte, and transition T1 in every state (R92, R127): a fresh message begins. -/
def Dec.resync (d : Dec) : Dec × DecRsp := ({ d with len := 0, st := .inMessage }, .pending)

/-! ENC. -/

/-- `rem`, the remaining capacity. -/
def Enc.rem (e : Enc) : Nat := e.cap - e.len

/-- Append bytes at the cursor, all of them or none (R31, R35): the one operation by which ENC writes its buffer. -/
def Enc.append (e : Enc) (bytes : List Byte) : Enc × EncRsp :=
  if bytes.length ≤ e.rem then
    ({ e with buf := e.buf.writeAll e.len bytes, len := e.len + bytes.length }, .ok)
  else e.raiseNoSpace

/-- `ENC.len <- 0`; the buffer is not changed (R19, R70). -/
def Enc.clear (e : Enc) : Enc := { e with len := 0 }

/-- ENC.RESET (R70). -/
def Enc.resetCmd (e : Enc) : Enc × EncRsp := (e.clear, .ok)

/-- ENC.START (R71): length to 0, then append START. -/
def Enc.start (e : Enc) : Enc × EncRsp := e.clear.append [Config.startByte]

/-- ENC.WRITE of a special byte (R73): append the escape pair. -/
def Enc.writeSpecial (e : Enc) (b : Byte) : Enc × EncRsp := e.append [Config.escapeByte, maskByte b]

/-- ENC.WRITE of an ordinary byte (R74): append the byte. -/
def Enc.writeOrdinary (e : Enc) (b : Byte) : Enc × EncRsp := e.append [b]

/-- ENC.WRITE (R72): by R73 if the byte is special, else by R74. -/
def Enc.write (e : Enc) (b : Byte) : Enc × EncRsp :=
  if isSpecial b then e.writeSpecial b else e.writeOrdinary b

/-- ENC.END (R75): append END, raw. -/
def Enc.finish (e : Enc) : Enc × EncRsp := e.append [Config.endByte]

/-- Some WRITEs, one per payload byte, with the response of each. -/
def Enc.writes (e : Enc) : List Byte → Enc × List EncRsp
  | [] => (e, [])
  | b :: rest =>
    let first := e.write b
    let others := Enc.writes first.1 rest
    (others.1, first.2 :: others.2)

/-- The contract sequence `start, write*, end` in full, with the response of every command (R77, R79). -/
def Enc.contract (e : Enc) (payload : List Byte) : Enc × List EncRsp :=
  let started := e.start
  let written := started.1.writes payload
  let ended := written.1.finish
  (ended.1, started.2 :: (written.2 ++ [ended.2]))

/-- WRITEs up to the first that fails, then END if none did. -/
def Enc.frameRest (e : Enc) : List Byte → Enc × EncRsp
  | [] => e.finish
  | b :: rest =>
    match e.write b with
    | (e', .ok) => Enc.frameRest e' rest
    | (e', .fail) => (e', .fail)

/-- The pseudo-instruction `enc.frame` (R64): the contract sequence, ended by its first failing command. -/
def Enc.frame (e : Enc) (payload : List Byte) : Enc × EncRsp :=
  match e.start with
  | (e', .ok) => e'.frameRest payload
  | (e', .fail) => (e', .fail)

/-! DEC. -/

/-- `rem`, the remaining capacity. -/
def Dec.rem (d : Dec) : Nat := d.cap - d.len

/-- `DEC.len <- 0; DEC.st <- AwaitingStart`; the buffer is not changed (R19, R90). -/
def Dec.clear (d : Dec) : Dec := { d with len := 0, st := .awaitingStart }

/-- DEC.RESET (R90), the other way out of Error (R127). -/
def Dec.resetCmd (d : Dec) : Dec × DecRsp := (d.clear, .pending)

/-- Store a payload byte at the cursor (R31). -/
def Dec.store (d : Dec) (b : Byte) : Dec := { d with buf := d.buf.write d.len b, len := d.len + 1 }

/-- A byte is discarded: transitions T2 and T7 (R93, R98, R101). -/
def Dec.discard (d : Dec) : Dec × DecRsp := (d, .pending)

/-- Transition T3 (R94): no capacity test. -/
def Dec.beginEscape (d : Dec) : Dec × DecRsp := ({ d with st := .inEscape }, .pending)

/-- Transition T4 (R95): the message is complete. -/
def Dec.deliver (d : Dec) : Dec × DecRsp := ({ d with st := .awaitingStart }, .complete d.len)

/-- Transition T5 (R96): store, or overflow. -/
def Dec.payloadByte (d : Dec) (b : Byte) : Dec × DecRsp :=
  if 0 < d.rem then (d.store b, .pending) else d.raise .decOverflow

/-- Transition T6 (R97): unmask and store, or an error; specialness is tested before capacity (R125). -/
def Dec.escapedByte (d : Dec) (b : Byte) : Dec × DecRsp :=
  if isSpecial (maskByte b) then
    if 0 < d.rem then ({ d.store (maskByte b) with st := .inMessage }, .pending) else d.raise .decOverflow
  else d.raise .decBadEscape

/-- DEC.RX, the decode step (R91): the START test first, then the state (R125). -/
def Dec.rx (d : Dec) (b : Byte) : Dec × DecRsp :=
  if b == Config.startByte then d.resync
  else
    match d.st with
    | .awaitingStart => d.discard
    | .inMessage =>
      if b == Config.escapeByte then d.beginEscape
      else if b == Config.endByte then d.deliver
      else d.payloadByte b
    | .inEscape => d.escapedByte b
    | .error => d.discard

/-- The pseudo-instruction `dec.feed` (R64): RX of each byte, left to right (R43), with the response of each. -/
def Dec.feed (d : Dec) : List Byte → Dec × List DecRsp
  | [] => (d, [])
  | b :: rest =>
    let first := d.rx b
    let others := Dec.feed first.1 rest
    (others.1, first.2 :: others.2)

/-! The host's read ports (R37, R38): functions of a block's state. -/

/-- The answer of a read port. -/
inductive ReadResult where
  | byte (b : Byte)
  | refused (r : Refusal)
deriving DecidableEq, Repr

/-- `ENC.buf[i]` for `i < cap`: the byte last written, else the free value of power-on (log entry 3); refused from `cap` up. -/
def Enc.readPort (e : Enc) (i : Nat) : ReadResult :=
  if i < e.cap then .byte ((e.buf.read i).getD (Config.encPowerOnByte i)) else .refused (.readIndexOutOfRange i)

/-- `DEC.buf[i]` for `i < cap`: the byte last written, else the free value of power-on (log entry 3); refused from `cap` up. -/
def Dec.readPort (d : Dec) (i : Nat) : ReadResult :=
  if i < d.cap then .byte ((d.buf.read i).getD (Config.decPowerOnByte i)) else .refused (.readIndexOutOfRange i)

/-! The machine's state. -/

/-- ENC takes a new state and gives one response. -/
def State.putEnc (s : State) (r : Enc × EncRsp) : State := { s with enc := r.1, rsp := [.enc r.2] }

/-- DEC takes a new state and gives one response. -/
def State.putDec (s : State) (r : Dec × DecRsp) : State := { s with dec := r.1, rsp := [.dec r.2] }

/-- DEC takes the state that some bytes leave and gives a response for each. -/
def State.putFeed (s : State) (r : Dec × List DecRsp) : State := { s with dec := r.1, rsp := r.2.map .dec }

/-- No command is presented: no block changes, no response is given (R76, R99). -/
def State.idle (s : State) : State := { s with rsp := [] }

/-- Hardware reset of one block (R150): the state change of its RESET command, and no response. -/
def State.hardReset (s : State) (block : Block) : State :=
  match block with
  | .enc => { s with enc := s.enc.clear, rsp := [] }
  | .dec => { s with dec := s.dec.clear, rsp := [] }

/-- The presentations that remain after the oldest has been taken. -/
def State.withInputs (s : State) (inputs : List Input) : State := { s with inputs := inputs }

/-- Something presented before everything that already waits. -/
def State.present (s : State) (input : Input) : State := { s with inputs := input :: s.inputs }

end Sys2Proof.Machine
end

