-- ==== Sys2Proof/Machine/Flags.lean ====
section
/-! DEFINITION. There are no flags (R21). What stands in their place: the response and status outputs as the host sees them
on the ports (R58, R59, R60), and the classification of the error conditions (R120 to R123, R125). -/

namespace Sys2Proof.Machine

/-- `LW_E`, `LW_D`: `max(1, ceil(log2(cap + 1)))` bits, the number of binary digits of the capacity (00_scope.md section 5). -/
def lenWidth (cap : Nat) : Nat := if cap = 0 then 1 else Nat.log2 cap + 1

/-- `rsp_ok` (R58). -/
def EncRsp.bits : EncRsp → BitVec 1
  | .ok => 1
  | .fail => 0

/-- `rsp_status` (R59); 11 is never produced. -/
def DecRsp.status : DecRsp → BitVec 2
  | .pending => 0b00
  | .complete _ => 0b01
  | .error => 0b10

/-- `rsp_len`, the payload length carried by complete (R59). R59 gives it a meaning with status 01 only and states no value
beside another status: there it is the free value of log entry 21 (DESIGN CHOICE). -/
def DecRsp.lenBits (cap : Nat) : DecRsp → BitVec (lenWidth cap)
  | .pending => BitVec.ofNat _ (Config.rspLenUnused DecRsp.pending.status)
  | .complete n => BitVec.ofNat _ n
  | .error => BitVec.ofNat _ (Config.rspLenUnused DecRsp.error.status)

/-- The `len` output of ENC (R58). -/
def Enc.lenPort (e : Enc) : BitVec (lenWidth e.cap) := BitVec.ofNat _ e.len

/-- The `len` output of DEC (R59). -/
def Dec.lenPort (d : Dec) : BitVec (lenWidth d.cap) := BitVec.ofNat _ d.len

/-- The `state` output of DEC (R60). -/
def DecState.bits : DecState → BitVec 2
  | .awaitingStart => 0b00
  | .inMessage => 0b01
  | .inEscape => 0b10
  | .error => 0b11

/-- The level output `in_error` (R59, R101). -/
def Dec.inError (d : Dec) : Bool := d.st == .error

/-- The number of a cause (R120). -/
def Cause.number : Cause → Nat
  | .encNoSpace => 1
  | .decOverflow => 2
  | .decBadEscape => 3

/-- The commands of ENC, for the classification of R121. -/
inductive EncCmd where
  | reset
  | start
  | write (b : Byte)
  | finish
deriving DecidableEq, Repr

/-- The step of ENC on a command. -/
def Enc.cmd (e : Enc) : EncCmd → Enc × EncRsp
  | .reset => e.resetCmd
  | .start => e.start
  | .write b => e.write b
  | .finish => e.finish

/-- Which condition a command of ENC meets (R121), by R121's own words. -/
def Enc.cause (e : Enc) : EncCmd → Option Cause
  | .reset => none
  | .start => if e.cap = 0 then some .encNoSpace else none
  | .write b =>
    if isSpecial b then
      if e.cap - e.len < 2 then some .encNoSpace else none
    else
      if e.cap - e.len < 1 then some .encNoSpace else none
  | .finish => if e.cap - e.len < 1 then some .encNoSpace else none

/-- Which condition a received byte meets (R122, R123, R125), by their own words. -/
def Dec.cause (d : Dec) (b : Byte) : Option Cause :=
  match d.st, classify b with
  | .inMessage, .escCode => if d.len < d.cap then none else some .decOverflow
  | .inMessage, .data => if d.len < d.cap then none else some .decOverflow
  | .inEscape, .escCode => if d.len < d.cap then none else some .decOverflow
  | .inEscape, .endd => some .decBadEscape
  | .inEscape, .esc => some .decBadEscape
  | .inEscape, .data => some .decBadEscape
  | _, _ => none

end Sys2Proof.Machine
end

