-- ==== Sys2Proof/Machine/Decoder.lean ====
section
/-! DEFINITION. The meanings of the DEC rows (spec/41_decoder.md). The step is total (R103), so every meaning answers a next
state; an error condition is a response and the state Error, from which the machine goes on (R100, R126). -/

namespace Sys2Proof.Machine

/-- DEC.RESET (R90); the data field is ignored (R61). -/
def execDecReset (_data : Byte) (s : State) : Host.Outcome State Fault Refusal :=
  .next (s.putDec s.dec.resetCmd)

/-- DEC.RX of START (R92): transition T1 in every state. -/
def execDecRxStart (s : State) : Host.Outcome State Fault Refusal :=
  .next (s.putDec (s.dec.rx 0x7F))

/-- DEC.RX of END (R91): completes a message in InMessage (R95), a bad escape in InEscape (R97), else discarded (R93, R98). -/
def execDecRxEnd (s : State) : Host.Outcome State Fault Refusal :=
  .next (s.putDec (s.dec.rx 0x7E))

/-- DEC.RX of ESCAPE (R91): opens an escape in InMessage (R94), a bad escape in InEscape (R97), else discarded (R93, R98). -/
def execDecRxEsc (s : State) : Host.Outcome State Fault Refusal :=
  .next (s.putDec (s.dec.rx 0x7D))

/-- DEC.RX of 0x5D (R91): plain payload in InMessage (R96), stands for 0x7D in InEscape (R97), else discarded (R93, R98). -/
def execDecRxEsccode5D (s : State) : Host.Outcome State Fault Refusal :=
  .next (s.putDec (s.dec.rx 0x5D))

/-- DEC.RX of 0x5E (R91): plain payload in InMessage (R96), stands for 0x7E in InEscape (R97), else discarded (R93, R98). -/
def execDecRxEsccode5E (s : State) : Host.Outcome State Fault Refusal :=
  .next (s.putDec (s.dec.rx 0x5E))

/-- DEC.RX of 0x5F (R91): plain payload in InMessage (R96), stands for 0x7F in InEscape (R97), else discarded (R93, R98). -/
def execDecRxEsccode5F (s : State) : Host.Outcome State Fault Refusal :=
  .next (s.putDec (s.dec.rx 0x5F))

/-- DEC.RX of a byte of class DATA (R91): payload in InMessage (R96), a bad escape in InEscape (R97), else discarded (R93, R98).
On a byte of another class, which the row does not admit, the word is an RX of that byte and so is the effect (log entry 11). -/
def execDecRxData (b : Byte) (s : State) : Host.Outcome State Fault Refusal :=
  .next (s.putDec (s.dec.rx b))

/-- DEC.RX, the decode step as a whole (R91). -/
def execDecRx (b : Byte) (s : State) : Host.Outcome State Fault Refusal :=
  .next (s.putDec (s.dec.rx b))

end Sys2Proof.Machine
end

