-- ==== Sys2Proof/Machine/Encoder.lean ====
section
/-! DEFINITION. The meanings of the ENC rows (spec/40_encoder.md). Every command always executes, in any order and state
(R6, R77), so every meaning answers a next state; a command that does not fit responds fail and changes nothing (R121). -/

namespace Sys2Proof.Machine

/-- ENC.RESET (R70); the data field is ignored (R61). -/
def execEncReset (_data : Byte) (s : State) : Host.Outcome State Fault Refusal :=
  .next (s.putEnc s.enc.resetCmd)

/-- ENC.START (R71); the data field is ignored (R61). -/
def execEncStart (_data : Byte) (s : State) : Host.Outcome State Fault Refusal :=
  .next (s.putEnc s.enc.start)

/-- ENC.WRITE of 0x7D (R73): appends 0x7D, 0x5D. -/
def execEncWriteSpecial7D (s : State) : Host.Outcome State Fault Refusal :=
  .next (s.putEnc (s.enc.writeSpecial 0x7D))

/-- ENC.WRITE of 0x7E (R73): appends 0x7D, 0x5E. -/
def execEncWriteSpecial7E (s : State) : Host.Outcome State Fault Refusal :=
  .next (s.putEnc (s.enc.writeSpecial 0x7E))

/-- ENC.WRITE of 0x7F (R73): appends 0x7D, 0x5F. -/
def execEncWriteSpecial7F (s : State) : Host.Outcome State Fault Refusal :=
  .next (s.putEnc (s.enc.writeSpecial 0x7F))

/-- ENC.WRITE of an ordinary byte (R74). On a special byte, which the row does not admit, the word is a WRITE of that byte
and so is the effect (R72; log entry 11). -/
def execEncWriteOrdinary (b : Byte) (s : State) : Host.Outcome State Fault Refusal :=
  .next (s.putEnc (if isSpecial b then s.enc.writeSpecial b else s.enc.writeOrdinary b))

/-- ENC.WRITE, the command as a whole (R72). -/
def execEncWrite (b : Byte) (s : State) : Host.Outcome State Fault Refusal :=
  .next (s.putEnc (s.enc.write b))

/-- ENC.END (R75); the data field is ignored (R61). -/
def execEncEnd (_data : Byte) (s : State) : Host.Outcome State Fault Refusal :=
  .next (s.putEnc s.enc.finish)

end Sys2Proof.Machine
end

