-- ==== Sys2Proof/Machine/Wire.lean ====
section
/-! DEFINITION. The meanings of the WIRE rows (R50, R51): a unit of the wire format arriving at the hardware. The transport
feeds its bytes to DEC one at a time, in stream order (R5, R43), which is `dec.feed` of them (R64; log entry 8). -/

namespace Sys2Proof.Machine

/-- WIRE.START (R50): the byte 0x7F. -/
def execWireStart (s : State) : Host.Outcome State Fault Refusal :=
  .next (s.putFeed (s.dec.feed [0x7F]))

/-- WIRE.END (R50): the byte 0x7E. -/
def execWireEnd (s : State) : Host.Outcome State Fault Refusal :=
  .next (s.putFeed (s.dec.feed [0x7E]))

/-- WIRE.E_7D (R51): the bytes 0x7D, 0x5D. -/
def execWireE7D (s : State) : Host.Outcome State Fault Refusal :=
  .next (s.putFeed (s.dec.feed [0x7D, 0x5D]))

/-- WIRE.E_7E (R51): the bytes 0x7D, 0x5E. -/
def execWireE7E (s : State) : Host.Outcome State Fault Refusal :=
  .next (s.putFeed (s.dec.feed [0x7D, 0x5E]))

/-- WIRE.E_7F (R51): the bytes 0x7D, 0x5F. -/
def execWireE7F (s : State) : Host.Outcome State Fault Refusal :=
  .next (s.putFeed (s.dec.feed [0x7D, 0x5F]))

/-- WIRE.E_ORDINARY (R51): the byte itself. -/
def execWireEOrdinary (x : Byte) (s : State) : Host.Outcome State Fault Refusal :=
  .next (s.putFeed (s.dec.feed [x]))

end Sys2Proof.Machine
end

