-- ==== Sys2Proof/Machine/Dispatch.lean ====
section
/-! DEFINITION. One instruction's meaning, per constructor. -/

namespace Sys2Proof.Machine

def exec (i : Instr) (s : State) : Host.Outcome State Fault Refusal :=
  match i with
  | .encReset data => Sys2Proof.Machine.execEncReset data s
  | .encStart data => Sys2Proof.Machine.execEncStart data s
  | .encWriteSpecial7D => Sys2Proof.Machine.execEncWriteSpecial7D s
  | .encWriteSpecial7E => Sys2Proof.Machine.execEncWriteSpecial7E s
  | .encWriteSpecial7F => Sys2Proof.Machine.execEncWriteSpecial7F s
  | .encWriteOrdinary b => Sys2Proof.Machine.execEncWriteOrdinary b s
  | .encWrite b => Sys2Proof.Machine.execEncWrite b s
  | .encEnd data => Sys2Proof.Machine.execEncEnd data s
  | .decReset data => Sys2Proof.Machine.execDecReset data s
  | .decRxStart => Sys2Proof.Machine.execDecRxStart s
  | .decRxEnd => Sys2Proof.Machine.execDecRxEnd s
  | .decRxEsc => Sys2Proof.Machine.execDecRxEsc s
  | .decRxEsccode5D => Sys2Proof.Machine.execDecRxEsccode5D s
  | .decRxEsccode5E => Sys2Proof.Machine.execDecRxEsccode5E s
  | .decRxEsccode5F => Sys2Proof.Machine.execDecRxEsccode5F s
  | .decRxData b => Sys2Proof.Machine.execDecRxData b s
  | .decRx b => Sys2Proof.Machine.execDecRx b s
  | .wireStart => Sys2Proof.Machine.execWireStart s
  | .wireEnd => Sys2Proof.Machine.execWireEnd s
  | .wireE7D => Sys2Proof.Machine.execWireE7D s
  | .wireE7E => Sys2Proof.Machine.execWireE7E s
  | .wireE7F => Sys2Proof.Machine.execWireE7F s
  | .wireEOrdinary x => Sys2Proof.Machine.execWireEOrdinary x s

end Sys2Proof.Machine
end

