-- ==== Sys2Proof/Machine/Step.lean ====
section
/-! DEFINITION. One step of the machine: the oldest of the host's presentations is taken and acted on (R5, R6, R41). -/

namespace Sys2Proof.Machine

/-- Act on what a presentation asks: idle (R76, R99), hardware reset (R150), or one instruction. -/
def perform (action : Action) (s : State) : Host.Outcome State Fault Refusal :=
  match action with
  | .idle => .next s.idle
  | .hardReset block => .next (s.hardReset block)
  | .run i => exec i s

/-- One step. -/
def step (s : State) : Host.Outcome State Fault Refusal :=
  perform (fetch s.inputs).1 (s.withInputs (fetch s.inputs).2)

/-- The state in which the host presents a table word before anything else it presents; a word that stands for nothing is
not presented (log entry 12). -/
def State.withFetchWord (s : State) (nbits w : Nat) : State :=
  match tableInput nbits w with
  | some input => s.present input
  | none => s

end Sys2Proof.Machine
end

