-- ==== Sys2Proof/Safety.lean ====
section
/-! DEFINITION. What claims are made of: the invariant of every reachable state (R15, R19, R36), what the host may read of a
block (R39, R40), runs of several instructions with their responses (R8), and which command an instruction is. -/

namespace Sys2Proof

/-! Which command an instruction is. -/

/-- The command of ENC that a row is, if it is one. -/
def Instr.encCmd : Instr → Option Machine.EncCmd
  | .encReset _ => some .reset
  | .encStart _ => some .start
  | .encWriteSpecial7D => some (.write 0x7D)
  | .encWriteSpecial7E => some (.write 0x7E)
  | .encWriteSpecial7F => some (.write 0x7F)
  | .encWriteOrdinary b => some (.write b)
  | .encWrite b => some (.write b)
  | .encEnd _ => some .finish
  | .decReset _ => none
  | .decRxStart => none
  | .decRxEnd => none
  | .decRxEsc => none
  | .decRxEsccode5D => none
  | .decRxEsccode5E => none
  | .decRxEsccode5F => none
  | .decRxData _ => none
  | .decRx _ => none
  | .wireStart => none
  | .wireEnd => none
  | .wireE7D => none
  | .wireE7E => none
  | .wireE7F => none
  | .wireEOrdinary _ => none

/-- The byte that an RX row receives, if it is one. -/
def Instr.rxByte : Instr → Option Byte
  | .encReset _ => none
  | .encStart _ => none
  | .encWriteSpecial7D => none
  | .encWriteSpecial7E => none
  | .encWriteSpecial7F => none
  | .encWriteOrdinary _ => none
  | .encWrite _ => none
  | .encEnd _ => none
  | .decReset _ => none
  | .decRxStart => some 0x7F
  | .decRxEnd => some 0x7E
  | .decRxEsc => some 0x7D
  | .decRxEsccode5D => some 0x5D
  | .decRxEsccode5E => some 0x5E
  | .decRxEsccode5F => some 0x5F
  | .decRxData b => some b
  | .decRx b => some b
  | .wireStart => none
  | .wireEnd => none
  | .wireE7D => none
  | .wireE7E => none
  | .wireE7F => none
  | .wireEOrdinary _ => none

/-- The bytes of a WIRE row, first on the wire first, if it is one. -/
def Instr.wireBytes : Instr → Option (List Byte)
  | .encReset _ => none
  | .encStart _ => none
  | .encWriteSpecial7D => none
  | .encWriteSpecial7E => none
  | .encWriteSpecial7F => none
  | .encWriteOrdinary _ => none
  | .encWrite _ => none
  | .encEnd _ => none
  | .decReset _ => none
  | .decRxStart => none
  | .decRxEnd => none
  | .decRxEsc => none
  | .decRxEsccode5D => none
  | .decRxEsccode5E => none
  | .decRxEsccode5F => none
  | .decRxData _ => none
  | .decRx _ => none
  | .wireStart => some [0x7F]
  | .wireEnd => some [0x7E]
  | .wireE7D => some [0x7D, 0x5D]
  | .wireE7E => some [0x7D, 0x5E]
  | .wireE7F => some [0x7D, 0x5F]
  | .wireEOrdinary x => some [x]

end Sys2Proof

namespace Sys2Proof.Machine

/-! The invariant. -/

/-- Every listed index lies below a bound (R30, R36). -/
def Memory.below (m : Memory) (bound : Nat) : Prop := ∀ c ∈ m, c.1 < bound

/-- Every index below `n` has been written (R19: `buf[0..n)` is meaningful). -/
def Memory.written (m : Memory) (n : Nat) : Prop := ∀ i < n, (m.read i).isSome = true

/-- The invariant of ENC: the length within the capacity (R15), no byte stored at or past the capacity (R36), every byte
below the length one that ENC wrote (R19), the buffer in canonical form. -/
structure Enc.Inv (e : Enc) : Prop where
  len_le : e.len ≤ e.cap
  below : e.buf.below e.cap
  written : e.buf.written e.len
  wf : e.buf.wf = true

/-- The invariant of DEC, as ENC's. -/
structure Dec.Inv (d : Dec) : Prop where
  len_le : d.len ≤ d.cap
  below : d.buf.below d.cap
  written : d.buf.written d.len
  wf : d.buf.wf = true

/-- The invariant of the machine. -/
structure State.Inv (s : State) : Prop where
  enc : s.enc.Inv
  dec : s.dec.Inv

/-! What the host reads. -/

/-- `buf[0..n)` of ENC as the host reads it: the byte at each index, in index order (R33). -/
def Enc.contents (e : Enc) (n : Nat) : List ReadResult := (List.range n).map e.readPort

/-- `buf[0..n)` of DEC as the host reads it: the byte at each index, in index order (R33). -/
def Dec.contents (d : Dec) (n : Nat) : List ReadResult := (List.range n).map d.readPort

/-- `ENC.len` is the number of these bytes, and `ENC.buf[0..len)` reads as exactly them. -/
def Enc.holds (e : Enc) (bytes : List Byte) : Prop :=
  e.len = bytes.length ∧ e.contents e.len = bytes.map .byte

/-- `DEC.len` is the number of these bytes, and `DEC.buf[0..len)` reads as exactly them. -/
def Dec.holds (d : Dec) (bytes : List Byte) : Prop :=
  d.len = bytes.length ∧ d.contents d.len = bytes.map .byte

/-! Runs. -/

/-- Instructions run in order of presentation (R41): the state they leave and every response, in order (R8);
none if one of them did not complete. -/
def execAll (s : State) : List Instr → Option (State × List Rsp)
  | [] => some (s, [])
  | i :: rest =>
    match exec i s with
    | .next t => (execAll t rest).map fun r => (r.1, t.rsp ++ r.2)
    | .fault _ => none
    | .refused _ => none

/-- The commands of `enc.frame` (R64, R77): START, a WRITE per payload byte, END. -/
def frameInstrs (payload : List Byte) : List Instr :=
  .encStart 0 :: (payload.map .encWrite ++ [.encEnd 0])

/-- The commands of `dec.feed` (R64): an RX per byte. -/
def feedInstrs (bytes : List Byte) : List Instr := bytes.map .decRx

/-- How many bytes each command of `frameInstrs` appends (R35, R52). -/
def frameSizes (payload : List Byte) : List Nat :=
  1 :: (payload.map (fun b => (escapeSeq b).length) ++ [1])

/-- Where a command of ENC stores (R31, R71): at index 0 for START, at the cursor for the others. -/
def EncCmd.storeIndex (e : Enc) : EncCmd → Nat
  | .reset => e.len
  | .start => 0
  | .write _ => e.len
  | .finish => e.len

/-- How many bytes a command of ENC stores (R35): RESET 0, START 1, WRITE 1 or 2, END 1. -/
def EncCmd.storeWidth : EncCmd → Nat
  | .reset => 0
  | .start => 1
  | .write b => if isSpecial b then 2 else 1
  | .finish => 1

/-- The bytes a command of ENC stores, first index first (R71, R73, R74, R75). -/
def EncCmd.storeBytes : EncCmd → List Byte
  | .reset => []
  | .start => [Config.startByte]
  | .write b => escapeSeq b
  | .finish => [Config.endByte]

/-! What storing means, for statements. -/

/-- From `s` to `t`, ENC has stored `bytes` from `index` on and answered ok, its length just past them; every other byte of
its buffer and everything else is as before. -/
def EncStored (s t : State) (index : Nat) (bytes : List Byte) : Prop :=
  t.enc.len = index + bytes.length ∧
  (∀ k < bytes.length, t.enc.buf.read (index + k) = bytes[k]?) ∧
  (∀ k, k < index ∨ index + bytes.length ≤ k → t.enc.buf.read k = s.enc.buf.read k) ∧
  t.enc.cap = s.enc.cap ∧ t.dec = s.dec ∧ t.inputs = s.inputs ∧ t.rsp = [.enc .ok]

/-- `i` appends `bytes` to ENC's buffer at the cursor if they fit, and otherwise answers fail and changes nothing (R35, R121). -/
def EncAppends (i : Instr) (s : State) (bytes : List Byte) : Prop :=
  (bytes.length ≤ s.enc.cap - s.enc.len → ∃ t, exec i s = .next t ∧ EncStored s t s.enc.len bytes) ∧
  (s.enc.cap - s.enc.len < bytes.length → exec i s = .next { s with rsp := [.enc .fail] })

/-- From `s` to `t`, DEC has stored the payload byte `b` at the cursor and is in InMessage, with these responses; every other
byte of its buffer and everything else is as before. -/
def DecStored (s t : State) (b : Byte) (rsp : List Rsp) : Prop :=
  t.dec.len = s.dec.len + 1 ∧ t.dec.st = .inMessage ∧
  t.dec.buf.read s.dec.len = some b ∧
  (∀ k, k ≠ s.dec.len → t.dec.buf.read k = s.dec.buf.read k) ∧
  t.dec.cap = s.dec.cap ∧ t.enc = s.enc ∧ t.inputs = s.inputs ∧ t.rsp = rsp

/-- Everything of a state but the buffers' bytes (R32). -/
def State.sameButBuffers (s t : State) : Prop :=
  s.enc.cap = t.enc.cap ∧ s.enc.len = t.enc.len ∧ s.dec.cap = t.dec.cap ∧ s.dec.len = t.dec.len ∧
  s.dec.st = t.dec.st ∧ s.rsp = t.rsp ∧ s.inputs = t.inputs

end Sys2Proof.Machine
end

