-- ==== Sys2Proof/Certificates/Slice0/Obligations.lean ====
section
/-! DEFINITION. The statements for the provers, in the order of the spec's files. No statement rests on the value of a free
value or of a capacity of Config: a capacity is whatever the state carries. -/

open Sys2Proof Sys2Proof.Machine

/-! The wire format and the command words (spec/30_encoding.md). -/

/-- Derived from R50 and R51, as the spec's own inference in 30_encoding.md section 1 ("Frame length"): the length of a frame,
with its least and greatest value for the payload's length. -/
def Obligations.FrameLengthCountsSpecialBytesTwice : Prop :=
  ∀ payload : List Byte,
    (frameOf payload).length = 2 + payload.length + specialCount payload ∧
    2 ≤ (frameOf payload).length ∧ (frameOf payload).length ≤ 2 + 2 * payload.length

/-- Derived from R51 and from 30_encoding.md section 1 ("Variable length"): the escape sequence of a payload byte, whatever
follows it on the line, is read as one unit, and what follows is left; the unit's own bytes are that escape sequence. -/
def Obligations.LineUnitIsTheEscapeSequence : Prop :=
  ∀ (x : Byte) (rest : List Byte),
    ∃ i, decodeLine (escapeSeq x ++ rest) = .instr i rest ∧ i.WellFormed = true ∧
      encode i = .line (escapeSeq x) ∧ i.wireBytes = some (escapeSeq x)

/-- The spec's own choice of command words (30_encoding.md section 3, decisions D3 and D4): no command word is illegal; every
word is the word of the instruction decoded from it, and presenting it to its block runs that instruction. -/
def Obligations.EveryCommandWordIsOneInstruction : Prop :=
  (∀ (w : EncWord) (s : State), (decodeEnc w).WellFormed = true ∧ encode (decodeEnc w) = presentEnc w ∧
    step (s.present (presentEnc w)) = exec (decodeEnc w) s) ∧
  (∀ (w : DecWord) (s : State), (decodeDec w).WellFormed = true ∧ encode (decodeDec w) = presentDec w ∧
    step (s.present (presentDec w)) = exec (decodeDec w) s)

/-- Words written out bit by bit from the encodings of 30_encoding.md sections 1 and 3 decode to the instructions they stand for. -/
def Obligations.SampleWordsDecode : Prop :=
  decodeEnc 0b0000000000 = .encReset 0x00 ∧ decodeEnc 0b0111111111 = .encStart 0xFF ∧
  decodeEnc 0b1001111101 = .encWriteSpecial7D ∧ decodeEnc 0b1001000001 = .encWriteOrdinary 0x41 ∧
  decodeEnc 0b1110100101 = .encEnd 0xA5 ∧
  decodeDec 0b010101011 = .decReset 0xAB ∧ decodeDec 0b101111111 = .decRxStart ∧
  decodeDec 0b101011110 = .decRxEsccode5E ∧ decodeDec 0b101000001 = .decRxData 0x41 ∧
  decodeLine [0b01111101, 0b01011111] = .instr .wireE7F [] ∧ decodeLine [0b01000001] = .instr (.wireEOrdinary 0x41) []

/-- Decode and encode agree, on every well-formed instruction with every operand: the words of an instruction decode to the
row a first-match decoder reaches for them, which is the instruction itself but for the two group rows (30_encoding.md
section 5; log entry 10). -/
def Obligations.DecodeOfEncodeIsTheInstruction : Prop :=
  ∀ i : Instr, i.WellFormed = true →
    decode (encode i) = .instr i.classRow [] ∧
    ((∀ b, i ≠ .encWrite b) → (∀ b, i ≠ .decRx b) → i.classRow = i)

/-- What an instruction does depends on its words alone: two instructions with the same words have the same effect from every
state (the group rows and their class rows among them; the model's reading, log entries 10 and 11). -/
def Obligations.SameWordsSameEffect : Prop :=
  ∀ i j : Instr, encode i = encode j → ∀ s : State, exec i s = exec j s

/-- The spec's own choice (30_encoding.md section 3, "Ignored fields", decisions D3 and D4): the data field of ENC.RESET,
ENC.START, ENC.END (op 00, 01, 11) and DEC.RESET (op 0) has no effect on what a step does. -/
def Obligations.IgnoredDataFieldHasNoEffect : Prop :=
  (∀ (w w' : EncWord) (s : State), w.extractLsb' 8 2 = w'.extractLsb' 8 2 → w.extractLsb' 8 2 ≠ (0b10 : BitVec 2) →
    step (s.present (presentEnc w)) = step (s.present (presentEnc w'))) ∧
  (∀ (w w' : DecWord) (s : State), w.extractLsb' 8 1 = (0b0 : BitVec 1) → w'.extractLsb' 8 1 = (0b0 : BitVec 1) →
    step (s.present (presentDec w)) = step (s.present (presentDec w')))

/-- The spec's own choice of outputs (R58, R59, R60, decisions D5 and D6; widths of 00_scope.md section 5): the len outputs
lose nothing while a length is within its capacity, and `rsp_len` of a completion is `DEC.len`; `rsp_ok` is 1 for ok and 0
for fail; `rsp_status` is 00 for pending, 01 for complete, 10 for error and never 11; `state` has the four codes of R60; and
`in_error` is 1 exactly in state Error. What `rsp_len` carries beside another status is a free value (log entry 21), of which
nothing is said. -/
def Obligations.OutputPortsShowTheState : Prop :=
  (∀ e : Enc, e.len ≤ e.cap → e.lenPort.toNat = e.len) ∧
  (∀ d : Dec, d.len ≤ d.cap → d.lenPort.toNat = d.len ∧ ((DecRsp.complete d.len).lenBits d.cap).toNat = d.len) ∧
  (∀ r : EncRsp, (r.bits = 1 ↔ r = .ok) ∧ (r.bits = 0 ↔ r = .fail)) ∧
  (∀ r : DecRsp, (r.status = 0b00 ↔ r = .pending) ∧ (r.status = 0b01 ↔ ∃ n, r = .complete n) ∧
    (r.status = 0b10 ↔ r = .error) ∧ r.status ≠ 0b11) ∧
  (∀ d : Dec, (d.st.bits = 0b00 ↔ d.st = .awaitingStart) ∧ (d.st.bits = 0b01 ↔ d.st = .inMessage) ∧
    (d.st.bits = 0b10 ↔ d.st = .inEscape) ∧ (d.st.bits = 0b11 ↔ d.st = .error) ∧
    (d.inError = true ↔ d.st = .error))

/-- Derived from R51 and R56: after ESCAPE in InMessage, each of the 252 bytes that are neither an escape code nor START is a
decode error that stores nothing, and START begins a new message instead. -/
def Obligations.EscapeThenAnyOtherByteIsAnError : Prop :=
  ∀ (b : Byte) (s : State), s.dec.st = .inMessage → b ∉ ([0x5D, 0x5E, 0x5F] : List Byte) →
    ∃ t rs, execAll s (feedInstrs [0x7D, b]) = some (t, rs) ∧
      (b ≠ 0x7F → t.dec = { s.dec with st := .error } ∧ rs = [.dec .pending, .dec .error]) ∧
      (b = 0x7F → t.dec = { s.dec with len := 0, st := .inMessage } ∧ rs = [.dec .pending, .dec .pending])

/-! State and memory (spec/10_state.md, spec/20_memory.md). -/

/-- R15, R19, R36 and the canonical form of the buffers: every step keeps them, from every state that has them. -/
def Obligations.EveryStepKeepsTheInvariant : Prop :=
  ∀ s t : State, s.Inv → step s = .next t → t.Inv

/-- The invariant holds after reset, whatever the capacities. -/
def Obligations.ResetMeetsTheInvariant : Prop := State.reset.Inv

/-- R15: on every run from reset, whatever the host presents, both lengths stay within the capacities, and no byte has been
written at an index past a capacity. That a capacity does not change is 10_state.md section 6 (R22). The step lemma is
`EveryStepKeepsTheInvariant`. -/
def Obligations.LengthsStayWithinTheCapacities : Prop :=
  ∀ (presented : List Input) (k : Nat) (t : State),
    core.run k (State.reset.withInputs presented) = .next t →
      t.enc.len ≤ t.enc.cap ∧ t.dec.len ≤ t.dec.cap ∧
      t.enc.cap = State.reset.enc.cap ∧ t.dec.cap = State.reset.dec.cap ∧
      (∀ i, t.enc.cap ≤ i → t.enc.buf.read i = none) ∧ (∀ i, t.dec.cap ≤ i → t.dec.buf.read i = none)

/-- R16: no partial mutation. An ENC row that answers fail leaves the block exactly as it was (under the invariant R15, by
which a failing START finds the length 0); one that answers ok has stored all of its bytes, with the length just past them; a
received byte that is answered error changes DEC's state register only. -/
def Obligations.NoPartialMutation : Prop :=
  (∀ (i : Instr) (c : EncCmd) (s t : State), i.encCmd = some c → s.enc.len ≤ s.enc.cap → exec i s = .next t →
    (t.rsp = [.enc .fail] → t.enc = s.enc) ∧
    (t.rsp = [.enc .ok] → c ≠ .reset →
      t.enc.len = c.storeIndex s.enc + c.storeBytes.length ∧
      ∀ k < c.storeBytes.length, t.enc.buf.read (c.storeIndex s.enc + k) = c.storeBytes[k]?)) ∧
  (∀ (i : Instr) (b : Byte) (s t : State), i.rxByte = some b → exec i s = .next t → t.rsp = [.dec .error] →
    t.dec = { s.dec with st := .error })

/-- What reset leaves: the values of R24's first sentence, the capacities of Config, of which nothing is known, and no byte of
either buffer known (the form of hardware reset is the spec's own choice, decision D9). -/
def Obligations.ResetValues : Prop :=
  State.reset.enc.len = 0 ∧ State.reset.dec.len = 0 ∧ State.reset.dec.st = .awaitingStart ∧
  State.reset.enc.cap = Config.encCap ∧ State.reset.dec.cap = Config.decCap ∧
  ∀ i, State.reset.enc.buf.read i = none ∧ State.reset.dec.buf.read i = none

/-- R6: every step completes, in every state; and so does every instruction. -/
def Obligations.EveryStepCompletes : Prop :=
  ∀ s : State, (∃ t, step s = .next t) ∧ ∀ i : Instr, ∃ t, exec i s = .next t

/-- From R31, R35 and 10_state.md sections 2 and 6: no step changes a capacity; a length advances by 0, 1 or 2 (ENC) or 0 or 1 (DEC), or is
set back: to 0 by a reset or by START at DEC, to 0 or 1 by ENC.START. -/
def Obligations.StepsMoveLengthsOnlyAsTheRulesSay : Prop :=
  ∀ s t : State, step s = .next t →
    t.enc.cap = s.enc.cap ∧ t.dec.cap = s.dec.cap ∧
    (t.enc.len = 0 ∨ t.enc.len = 1 ∨ t.enc.len = s.enc.len ∨ t.enc.len = s.enc.len + 1 ∨ t.enc.len = s.enc.len + 2) ∧
    (t.dec.len = 0 ∨ t.dec.len = s.dec.len ∨ t.dec.len = s.dec.len + 1)

/-- The spec's own inference in 20_memory.md section 1 ("Neither block ever reads its buffer"): nothing any step decides
depends on a stored byte. From two states that differ in nothing but the buffers' bytes, steps lead to two states that differ
in nothing but the buffers' bytes. -/
def Obligations.NoStepDependsOnBufferContents : Prop :=
  ∀ s s' t t' : State, s.sameButBuffers s' → step s = .next t → step s' = .next t' → t.sameButBuffers t'

/-- The spec's own choice of read port (20_memory.md sections 4 and 5, decisions D8 and D22): the ports answer below the
capacity, with the byte last written where there is one, and refuse from the capacity up. The free value answered elsewhere is
log entry 3. -/
def Obligations.ReadPortsAnswerBelowTheCapacity : Prop :=
  (∀ (e : Enc) (i : Nat), (e.cap ≤ i → e.readPort i = .refused (.readIndexOutOfRange i)) ∧
    (i < e.cap → ∃ b, e.readPort i = .byte b ∧ ∀ c, e.buf.read i = some c → b = c)) ∧
  (∀ (d : Dec) (i : Nat), (d.cap ≤ i → d.readPort i = .refused (.readIndexOutOfRange i)) ∧
    (i < d.cap → ∃ b, d.readPort i = .byte b ∧ ∀ c, d.buf.read i = some c → b = c))

/-- The frame of every ENC row (encReset, encStart, encWriteSpecial7D, encWriteSpecial7E, encWriteSpecial7F, encWriteOrdinary,
encWrite, encEnd), from R17, R45 and 20_memory.md sections 1 and 4. DEC, the capacity and what the host presents are untouched;
outside the bytes that the command stores, every byte of ENC's buffer reads as before. -/
def Obligations.EncRowsFrame : Prop :=
  ∀ (i : Instr) (c : EncCmd) (s t : State), i.encCmd = some c → exec i s = .next t →
    t.dec = s.dec ∧ t.inputs = s.inputs ∧ t.enc.cap = s.enc.cap ∧
    ∀ k, k < c.storeIndex s.enc ∨ c.storeIndex s.enc + c.storeWidth ≤ k → t.enc.buf.read k = s.enc.buf.read k

/-- The frame of every DEC row and WIRE row (decReset, the nine RX rows, the six WIRE rows), from R17, R45 and 20_memory.md
sections 1 and 4. ENC, the capacity and what the host presents are untouched; every byte of DEC's buffer but the one at the
cursor reads as before; unless the length has gone up by one, nothing is stored. -/
def Obligations.DecAndWireRowsFrame : Prop :=
  ∀ (i : Instr) (s t : State), i.encCmd = none → exec i s = .next t →
    t.enc = s.enc ∧ t.inputs = s.inputs ∧ t.dec.cap = s.dec.cap ∧
    (∀ k, k ≠ s.dec.len → t.dec.buf.read k = s.dec.buf.read k) ∧
    (t.dec.len ≠ s.dec.len + 1 → t.dec.buf = s.dec.buf)

/-! The encoder's commands (spec/40_encoder.md). -/

/-- ENC.RESET (encReset): the length of R70. That it answers ok is the spec's own choice, decision D12. -/
def Obligations.EncResetZeroesTheLength : Prop :=
  ∀ (data : Byte) (s : State),
    exec (.encReset data) s = .next { s with enc := { s.enc with len := 0 }, rsp := [.enc .ok] }

/-- R71: ENC.START (encStart), with a capacity of at least 1 and with none, whatever the length was; its word. -/
def Obligations.EncStartBeginsAFrame : Prop :=
  ∀ (data : Byte) (s : State),
    (1 ≤ s.enc.cap → ∃ t, exec (.encStart data) s = .next t ∧ EncStored s t 0 [0x7F]) ∧
    (s.enc.cap = 0 →
      exec (.encStart data) s = .next { s with enc := { s.enc with len := 0 }, rsp := [.enc .fail] }) ∧
    encode (.encStart data) = presentEnc ((0b01 : BitVec 2) ++ data)

/-- R72: ENC.WRITE (encWrite), the command as a whole; its word. -/
def Obligations.EncWriteAppendsTheEscapedByte : Prop :=
  ∀ (b : Byte) (s : State),
    (isSpecial b = true ↔ b = 0x7D ∨ b = 0x7E ∨ b = 0x7F) ∧
    (isSpecial b = true → EncAppends (.encWrite b) s [0x7D, 0x20 ^^^ b]) ∧
    (isSpecial b = false → EncAppends (.encWrite b) s [b]) ∧
    encode (.encWrite b) = presentEnc ((0b10 : BitVec 2) ++ b)

/-- R73: ENC.WRITE of a special byte (encWriteSpecial7D, encWriteSpecial7E, encWriteSpecial7F). -/
def Obligations.EncWriteSpecialAppendsTheEscapePair : Prop :=
  ∀ s : State,
    EncAppends .encWriteSpecial7D s [0x7D, 0x5D] ∧
    EncAppends .encWriteSpecial7E s [0x7D, 0x5E] ∧
    EncAppends .encWriteSpecial7F s [0x7D, 0x5F]

/-- R74: ENC.WRITE of an ordinary byte (encWriteOrdinary). -/
def Obligations.EncWriteOrdinaryAppendsTheByte : Prop :=
  ∀ (b : Byte) (s : State), b ≠ 0x7D → b ≠ 0x7E → b ≠ 0x7F → EncAppends (.encWriteOrdinary b) s [b]

/-- R75: ENC.END (encEnd), and that after START and an escaped payload it leaves the complete frame; its word. -/
def Obligations.EncEndAppendsEnd : Prop :=
  ∀ (data : Byte) (s : State),
    EncAppends (.encEnd data) s [0x7E] ∧
    (∀ payload t, s.enc.holds (0x7F :: payload.flatMap escapeSeq) → s.enc.len < s.enc.cap →
      exec (.encEnd data) s = .next t → t.enc.holds (frameOf payload)) ∧
    encode (.encEnd data) = presentEnc ((0b11 : BitVec 2) ++ data)

/-- From R121: an ENC row answers fail exactly when ENC_NO_SPACE's own conditions hold, and then nothing but the response
changes; otherwise it answers ok. That RESET (encReset), which meets no condition, answers ok is the spec's own choice,
decision D12 (R70, R58). The premise is the invariant R15. -/
def Obligations.EncFailsExactlyForLackOfSpace : Prop :=
  ∀ (i : Instr) (c : EncCmd) (s : State), i.encCmd = some c → s.enc.len ≤ s.enc.cap →
    ∃ t, exec i s = .next t ∧
      (s.enc.cause c = some .encNoSpace → t = { s with rsp := [.enc .fail] }) ∧
      (s.enc.cause c = none → t.rsp = [.enc .ok]) ∧
      (s.enc.cause c = some .encNoSpace ↔
        (c = .start ∧ s.enc.cap = 0) ∨
        (∃ b, c = .write b ∧ isSpecial b = true ∧ s.enc.cap - s.enc.len < 2) ∨
        (∃ b, c = .write b ∧ isSpecial b = false ∧ s.enc.cap - s.enc.len < 1) ∨
        (c = .finish ∧ s.enc.cap - s.enc.len < 1))

/-- The spec's own inference in 40_encoder.md section 7 ("Frame property"), from R71, R73, R74 and R75: the contract sequence
start, write*, end. If the frame fits, every command answers ok and the buffer then holds exactly `frame(P)`; if it does not,
the first command whose bytes do not fit answers fail, and those before it ok. -/
def Obligations.ContractSequenceBuildsTheFrame : Prop :=
  ∀ (payload : List Byte) (s : State),
    ∃ t rs, execAll s (frameInstrs payload) = some (t, rs) ∧ t.dec = s.dec ∧
      (2 + payload.length + specialCount payload ≤ s.enc.cap →
        rs = List.replicate (payload.length + 2) (.enc .ok) ∧ t.enc.holds (frameOf payload)) ∧
      (∀ k, k < payload.length + 2 → ((frameSizes payload).take (k + 1)).sum ≤ s.enc.cap →
        rs[k]? = some (.enc .ok)) ∧
      (∀ k, k < payload.length + 2 → ((frameSizes payload).take k).sum ≤ s.enc.cap →
        s.enc.cap < ((frameSizes payload).take (k + 1)).sum → rs[k]? = some (.enc .fail))

/-- The spec's own shorthand `enc.frame` (30_encoding.md section 6, decision D15): it answers ok exactly when every command of
the contract sequence does, and then leaves what that sequence leaves. -/
def Obligations.EncFrameIsTheContractSequence : Prop :=
  ∀ (e : Enc) (payload : List Byte),
    ((e.frame payload).2 = .ok ↔ (e.contract payload).2.all (· == .ok) = true) ∧
    ((e.frame payload).2 = .ok → (e.frame payload).1 = (e.contract payload).1)

/-- The spec's own inference in 40_encoder.md section 7 ("Capacity boundary"), for capacities 0 and 1: with capacity 0, START,
WRITE and END answer fail and the length stays 0; with capacity 1, START leaves the one byte 0x7F and every WRITE or END then
answers fail and changes nothing. -/
def Obligations.CapacityZeroAndOne : Prop :=
  ∀ (i : Instr) (c : EncCmd) (s : State), i.encCmd = some c → c ≠ .reset →
    (s.enc.cap = 0 → s.enc.len = 0 → exec i s = .next { s with rsp := [.enc .fail] }) ∧
    (s.enc.cap = 1 → c = .start → ∃ t, exec i s = .next t ∧ t.enc.holds [0x7F] ∧ t.rsp = [.enc .ok]) ∧
    (s.enc.cap = 1 → s.enc.len = 1 → c ≠ .start → exec i s = .next { s with rsp := [.enc .fail] })

/-! The decoder's commands (spec/41_decoder.md). -/

/-- DEC.RESET (decReset): the length and the state of R90. That it answers pending is the spec's own choice, decision D12. -/
def Obligations.DecResetReturnsToAwaitingStart : Prop :=
  ∀ (data : Byte) (s : State),
    exec (.decReset data) s =
      .next { s with dec := { s.dec with len := 0, st := .awaitingStart }, rsp := [.dec .pending] }

/-- R92, transition T1: a START byte in every state (decRxStart, and decRx of 0x7F). -/
def Obligations.StartByteResynchronises : Prop :=
  ∀ (i : Instr) (s : State), i.rxByte = some 0x7F →
    exec i s = .next { s with dec := { s.dec with len := 0, st := .inMessage }, rsp := [.dec .pending] }

/-- From R93, transition T2: in AwaitingStart a byte other than START is discarded, answered pending. In Error the same, from
R98, transition T7; that the answer there is pending is the choice of 90_conflicts.md C1 (R101, decision D10; log entry 14). -/
def Obligations.OtherBytesAreDiscardedOutsideAMessage : Prop :=
  ∀ (i : Instr) (b : Byte) (s : State), i.rxByte = some b → b ≠ 0x7F →
    s.dec.st = .awaitingStart ∨ s.dec.st = .error → exec i s = .next { s with rsp := [.dec .pending] }

/-- R94, transition T3: ESCAPE in InMessage (decRxEsc, and decRx of 0x7D), with no capacity test. -/
def Obligations.EscapeByteOpensAnEscape : Prop :=
  ∀ (i : Instr) (s : State), i.rxByte = some 0x7D → s.dec.st = .inMessage →
    exec i s = .next { s with dec := { s.dec with st := .inEscape }, rsp := [.dec .pending] }

/-- R95, transition T4: END in InMessage (decRxEnd, and decRx of 0x7E) completes the message, of length 0 too. -/
def Obligations.EndByteCompletesTheMessage : Prop :=
  ∀ (i : Instr) (s : State), i.rxByte = some 0x7E → s.dec.st = .inMessage →
    exec i s = .next { s with dec := { s.dec with st := .awaitingStart }, rsp := [.dec (.complete s.dec.len)] }

/-- R96, transition T5: any other byte in InMessage (decRxEsccode5D, decRxEsccode5E, decRxEsccode5F, decRxData, and decRx of
such a byte) is stored if there is room, and overflows otherwise. -/
def Obligations.PayloadByteIsStoredOrOverflows : Prop :=
  ∀ (i : Instr) (b : Byte) (s : State), i.rxByte = some b → b ≠ 0x7F → b ≠ 0x7D → b ≠ 0x7E → s.dec.st = .inMessage →
    (s.dec.len < s.dec.cap → ∃ t, exec i s = .next t ∧ DecStored s t b [.dec .pending]) ∧
    (s.dec.cap ≤ s.dec.len →
      exec i s = .next { s with dec := { s.dec with st := .error }, rsp := [.dec .error] } ∧
      s.dec.cause b = some .decOverflow)

/-- R97, transition T6: any byte but START in InEscape. The escape codes 0x5D, 0x5E, 0x5F (decRxEsccode5D, decRxEsccode5E,
decRxEsccode5F, and decRx of one) store 0x7D, 0x7E, 0x7F if there is room; everything else, END and ESCAPE among it, is a
decode error. -/
def Obligations.EscapedByteIsStoredOrAnError : Prop :=
  ∀ (i : Instr) (b : Byte) (s : State), i.rxByte = some b → b ≠ 0x7F → s.dec.st = .inEscape →
    (isSpecial (b ^^^ 0x20) = true ↔ b = 0x5D ∨ b = 0x5E ∨ b = 0x5F) ∧
    (isSpecial (b ^^^ 0x20) = true → s.dec.len < s.dec.cap →
      ∃ t, exec i s = .next t ∧ DecStored s t (b ^^^ 0x20) [.dec .pending]) ∧
    (isSpecial (b ^^^ 0x20) = false →
      exec i s = .next { s with dec := { s.dec with st := .error }, rsp := [.dec .error] } ∧
      s.dec.cause b = some .decBadEscape) ∧
    (isSpecial (b ^^^ 0x20) = true → s.dec.cap ≤ s.dec.len →
      exec i s = .next { s with dec := { s.dec with st := .error }, rsp := [.dec .error] } ∧
      s.dec.cause b = some .decOverflow)

/-- From R100: `complete(n)` is answered by END in InMessage only, with n the length; `error` exactly where a condition of R122
or R123 is met; every RX row answers exactly one of the three. That a byte discarded in Error is therefore not answered error
is the choice of 90_conflicts.md C1 (R101, decision D10; log entry 14). -/
def Obligations.EachReceivedByteHasOneResponse : Prop :=
  ∀ (i : Instr) (b : Byte) (s : State), i.rxByte = some b →
    ∃ t r, exec i s = .next t ∧ t.rsp = [.dec r] ∧
      (∀ n, r = .complete n ↔ s.dec.st = .inMessage ∧ b = 0x7E ∧ n = s.dec.len) ∧
      (r = .error ↔ s.dec.cause b ≠ none)

/-- From R40, R93 and R98: in AwaitingStart any number of bytes other than START change nothing at all of DEC: the delivered
payload stands in the buffer until the next START byte or reset. In Error they change nothing either; that they are answered
pending there is the choice of 90_conflicts.md C1 (R101, decision D10; log entry 14). -/
def Obligations.BytesOtherThanStartLeaveTheReadWindow : Prop :=
  ∀ (bytes : List Byte) (s : State), (0x7F : Byte) ∉ bytes →
    s.dec.st = .awaitingStart ∨ s.dec.st = .error →
    ∃ t, execAll s (feedInstrs bytes) = some (t, List.replicate bytes.length (.dec .pending)) ∧
      t.dec = s.dec ∧ t.enc = s.enc

/-- The spec's own inference in 41_decoder.md section 6 ("Acceptance"), from R92 and R94 to R98: from every decoder state a
frame whose payload fits is accepted whole; one whose payload does not fit gives one error, at the unit that carries payload
byte number DEC_CAP + 1, and no completion. That the error comes once, and every byte after it is answered pending, is the
choice of 90_conflicts.md C1 (R101, decision D10; log entry 14). -/
def Obligations.FrameIsAcceptedFromEveryState : Prop :=
  ∀ (payload : List Byte) (s : State),
    ∃ t rs, execAll s (feedInstrs (frameOf payload)) = some (t, rs) ∧ t.enc = s.enc ∧
      (payload.length ≤ s.dec.cap →
        rs = List.replicate ((frameOf payload).length - 1) (.dec .pending) ++ [.dec (.complete payload.length)] ∧
        t.dec.st = .awaitingStart ∧ t.dec.holds payload) ∧
      (s.dec.cap < payload.length →
        rs = List.replicate ((payload.take (s.dec.cap + 1)).flatMap escapeSeq).length (.dec .pending) ++ [.dec .error] ++
          List.replicate ((frameOf payload).length - ((payload.take (s.dec.cap + 1)).flatMap escapeSeq).length - 1)
            (.dec .pending) ∧
        t.dec.st = .error ∧ t.dec.holds (payload.take s.dec.cap))

/-- The spec's own inference in 41_decoder.md section 6 ("Round trip"): what the contract sequence leaves in ENC's buffer, read
through the read port and fed to DEC in any state, is delivered as the same payload. -/
def Obligations.RoundTripDeliversThePayload : Prop :=
  ∀ (payload : List Byte) (s : State),
    2 + payload.length + specialCount payload ≤ s.enc.cap → payload.length ≤ s.dec.cap →
    ∃ t rs bytes u vs, execAll s (frameInstrs payload) = some (t, rs) ∧
      t.enc.contents t.enc.len = bytes.map .byte ∧
      execAll t (feedInstrs bytes) = some (u, vs) ∧
      vs.getLast? = some (.dec (.complete payload.length)) ∧ u.dec.holds payload

/-- The spec's own inference in 41_decoder.md section 6 ("Resynchronisation"): after any bytes at all, START, 0x41, END deliver
the message [0x41], if DEC has room for one byte. -/
def Obligations.ResynchronisationAfterAnyBytes : Prop :=
  ∀ (noise : List Byte) (s : State), 1 ≤ s.dec.cap →
    ∃ t rs, execAll s (feedInstrs (noise ++ [0x7F, 0x41, 0x7E])) = some (t, rs) ∧
      rs.getLast? = some (.dec (.complete 1)) ∧ t.dec.holds [0x41] ∧ t.dec.st = .awaitingStart

/-! The wire rows. -/

/-- The model's reading of the WIRE rows (log entry 8), from R43, R50 and R51, with what R92, R94, R95, R96 and R97 say of the
bytes: in InMessage, with room where a byte is stored,
WIRE.E_7D, WIRE.E_7E and WIRE.E_7F (wireE7D, wireE7E, wireE7F) store 0x7D, 0x7E and 0x7F, WIRE.E_ORDINARY (wireEOrdinary) its
byte, WIRE.END (wireEnd) completes, and WIRE.START (wireStart) begins a message in every state. -/
def Obligations.WireUnitsArriveAtTheDecoder : Prop :=
  ∀ s : State,
    exec .wireStart s = .next { s with dec := { s.dec with len := 0, st := .inMessage }, rsp := [.dec .pending] } ∧
    (s.dec.st = .inMessage →
      exec .wireEnd s =
        .next { s with dec := { s.dec with st := .awaitingStart }, rsp := [.dec (.complete s.dec.len)] }) ∧
    (s.dec.st = .inMessage → s.dec.len < s.dec.cap →
      (∃ t, exec .wireE7D s = .next t ∧ DecStored s t 0x7D [.dec .pending, .dec .pending]) ∧
      (∃ t, exec .wireE7E s = .next t ∧ DecStored s t 0x7E [.dec .pending, .dec .pending]) ∧
      (∃ t, exec .wireE7F s = .next t ∧ DecStored s t 0x7F [.dec .pending, .dec .pending]) ∧
      (∀ x, isSpecial x = false → ∃ t, exec (.wireEOrdinary x) s = .next t ∧ DecStored s t x [.dec .pending]))

/-- The model's reading of the WIRE rows (log entry 8): a unit of the wire format is DEC.RX of its bytes, in stream order. -/
def Obligations.WireUnitIsItsBytesReceived : Prop :=
  ∀ (i : Instr) (bytes : List Byte) (s : State), i.wireBytes = some bytes →
    ∃ t u rs, exec i s = .next t ∧ execAll s (feedInstrs bytes) = some (u, rs) ∧
      t.dec = u.dec ∧ t.enc = u.enc ∧ t.inputs = u.inputs ∧ t.rsp = rs

/-! Error conditions (spec/60_exceptions.md). -/

/-- R122 and R123: when each condition of DEC is met, in the words of its rule (with `len = cap` for a full buffer, under the
invariant R15), that both are the state Error and the response error and nothing else, and that every byte but START is
discarded from then on. -/
def Obligations.DecoderErrorConditions : Prop :=
  ∀ (i : Instr) (b : Byte) (s : State), i.rxByte = some b → s.dec.len ≤ s.dec.cap →
    (s.dec.cause b = some .decBadEscape ↔
      s.dec.st = .inEscape ∧ b ≠ 0x7F ∧ b ∉ ([0x5D, 0x5E, 0x5F] : List Byte)) ∧
    (s.dec.cause b = some .decOverflow ↔
      s.dec.len = s.dec.cap ∧
        ((s.dec.st = .inMessage ∧ b ∉ ([0x7F, 0x7E, 0x7D] : List Byte)) ∨
         (s.dec.st = .inEscape ∧ b ∈ ([0x5D, 0x5E, 0x5F] : List Byte)))) ∧
    (s.dec.cause b ≠ none →
      ∃ t, exec i s = .next t ∧ t = { s with dec := { s.dec with st := .error }, rsp := [.dec .error] } ∧
        ∀ bytes : List Byte, 0x7F ∉ bytes → ∃ u rs, execAll t (feedInstrs bytes) = some (u, rs) ∧ u.dec = t.dec)

/-- From R127 and R98: DEC leaves Error by a START byte, by DEC.RESET or by hardware reset (whose form is decision D9), and by
nothing else that a step can do. -/
def Obligations.ErrorIsLeftOnlyByStartOrReset : Prop :=
  ∀ s t : State, s.dec.st = .error → step s = .next t → t.dec.st ≠ .error →
    ((fetch s.inputs).1 = .hardReset .dec ∧ t.dec.st = .awaitingStart) ∨
    ((∃ data, (fetch s.inputs).1 = .run (.decReset data)) ∧ t.dec.st = .awaitingStart) ∨
    (((fetch s.inputs).1 = .run .decRxStart ∨ (fetch s.inputs).1 = .run .wireStart) ∧ t.dec.st = .inMessage)

/-- From R131: an ENC row and a DEC or WIRE row give each block the same result in either order. -/
def Obligations.BlocksDoNotInterfere : Prop :=
  ∀ (i j : Instr) (s : State), i.encCmd ≠ none → j.encCmd = none →
    ∃ t u t' u', exec i s = .next t ∧ exec j t = .next u ∧ exec j s = .next t' ∧ exec i t' = .next u' ∧
      u.enc = u'.enc ∧ u.dec = u'.dec ∧ u.inputs = u'.inputs ∧ t.rsp = u'.rsp ∧ u.rsp = t'.rsp

/-! Reset, idling, and the step (spec/70_reset_and_hazards.md). -/

/-- The spec's own choice of hardware reset (70_reset_and_hazards.md section 1, decisions D9 and D19): it changes of a block
what its RESET command changes, gives no response, and drops a command presented with it. -/
def Obligations.HardwareResetWinsOverACommand : Prop :=
  (∀ (cmd : Option EncWord) (s : State),
    step (s.present (.enc ⟨true, cmd⟩)) = .next { s with enc := { s.enc with len := 0 }, rsp := [] }) ∧
  (∀ (cmd : Option DecWord) (s : State),
    step (s.present (.dec ⟨true, cmd⟩)) =
      .next { s with dec := { s.dec with len := 0, st := .awaitingStart }, rsp := [] })

/-- The spec's own choice (40_encoder.md section 5, 41_decoder.md section 3, decision D13): with no command presented nothing
changes and no response is given. -/
def Obligations.IdleChangesNothing : Prop :=
  ∀ s : State,
    step (s.present (.enc ⟨false, none⟩)) = .next { s with rsp := [] } ∧
    step (s.present (.dec ⟨false, none⟩)) = .next { s with rsp := [] } ∧
    (s.inputs = [] → step s = .next { s with rsp := [] })

/-- A step runs the decoded instruction: the oldest presentation is taken away and its instruction is run; of a line, the
first unit is taken and the bytes after it stay in front of everything else (log entries 4 and 9). -/
def Obligations.StepRunsTheDecodedInstruction : Prop :=
  ∀ (s : State) (i : Instr) (rest : List Input),
    (∀ input, s.inputs = input :: rest → decode input = .instr i [] → step s = exec i (s.withInputs rest)) ∧
    (∀ bytes left, s.inputs = .line bytes :: rest → decodeLine bytes = .instr i left → left ≠ [] →
      step s = exec i (s.withInputs (.line left :: rest)))

/-- From R43 and R56 (log entry 9): whatever bytes the transport has on its line, a unit of the wire format or not, the steps
that take them away feed exactly these bytes to DEC, left to right, and touch ENC not at all. -/
def Obligations.LineIsFedByteByByte : Prop :=
  ∀ (bytes : List Byte) (s : State), s.inputs = [.line bytes] →
    ∃ k t, k ≤ bytes.length + 1 ∧ core.run k s = .next t ∧ t.inputs = [] ∧
      t.dec = (s.dec.feed bytes).1 ∧ t.enc = s.enc

/-- The table words of the host: what the decoder reads from one is what a step runs when it is presented (log entry 12). -/
def Obligations.PresentedTableWordIsRun : Prop :=
  ∀ (s : State) (nbits w : Nat) (i : Instr), decodeTableWord nbits w = some i →
    step (s.withFetchWord nbits w) = exec i s
end

