-- ==== Sys2Proof/Laws/Decode.lean ====
section
/-! SUPPORT. What the decoders answer on the words the encoder makes. -/

namespace Sys2Proof

theorem encWordOf_data (op : BitVec 2) (data : Byte) : (encWordOf op data).extractLsb' 0 8 = data := by
  unfold encWordOf; ext; simp; grind

theorem encWordOf_op (op : BitVec 2) (data : Byte) : (encWordOf op data).extractLsb' 8 2 = op := by
  unfold encWordOf; ext i hi
  rw [BitVec.getElem_extractLsb', BitVec.getLsbD_append]
  simp [BitVec.getLsbD_eq_getElem hi]

theorem decWordOf_data (op : BitVec 1) (data : Byte) : (decWordOf op data).extractLsb' 0 8 = data := by
  unfold decWordOf; ext; simp; grind

theorem decWordOf_op (op : BitVec 1) (data : Byte) : (decWordOf op data).extractLsb' 8 1 = op := by
  unfold decWordOf; ext i hi
  rw [BitVec.getElem_extractLsb', BitVec.getLsbD_append]
  simp [BitVec.getLsbD_eq_getElem hi]

/-- The ENC decoder on a word made of an operation and a data field (R57). -/
theorem decodeEnc_encWordOf (op : BitVec 2) (data : Byte) :
    decodeEnc (encWordOf op data) =
      if op == 0b00 then .encReset data
      else if op == 0b01 then .encStart data
      else if op == 0b10 then encWriteRow data
      else .encEnd data := by
  simp only [decodeEnc, encWordOf_data, encWordOf_op]

/-- The DEC decoder on a word made of an operation and a data field (R59). -/
theorem decodeDec_decWordOf (op : BitVec 1) (data : Byte) :
    decodeDec (decWordOf op data) = if op == 0b0 then .decReset data else decRxRow data := by
  simp only [decodeDec, decWordOf_data, decWordOf_op]

/-- A WRITE of an ordinary byte is read as the ORDINARY row. -/
theorem encWriteRow_of_ordinary : ∀ b : Byte, isSpecial b = false → encWriteRow b = .encWriteOrdinary b := by
  decide

/-- An RX of a byte of class DATA is read as the DATA row. -/
theorem decRxRow_of_data : ∀ b : Byte, classify b = .data → decRxRow b = .decRxData b := by
  decide

end Sys2Proof
end

