-- ==== Sys2Proof/Laws/Memory.lean ====
section
/-! SUPPORT. The laws of a buffer: a read after a write, and what every write keeps (canonical form, bounds). -/

namespace Sys2Proof.Machine

@[simp] theorem Memory.read_nil (i : Nat) : Memory.read [] i = none := rfl

/-- Read after write to the same index. -/
@[simp] theorem Memory.read_write_self (m : Memory) (i : Nat) (b : Byte) : (m.write i b).read i = some b := by
  induction m with
  | nil => simp [Memory.write, Memory.read]
  | cons c rest ih =>
    obtain ⟨j, x⟩ := c
    by_cases h1 : i < j
    · simp [Memory.write, Memory.read, h1]
    · by_cases h2 : i = j
      · simp [Memory.write, Memory.read, h2]
      · simp [Memory.write, Memory.read, h1, h2, ih]

/-- A write leaves every other index alone. -/
theorem Memory.read_write_of_ne {m : Memory} {i k : Nat} {b : Byte} (h : k ≠ i) :
    (m.write i b).read k = m.read k := by
  induction m with
  | nil => simp [Memory.write, Memory.read, h]
  | cons c rest ih =>
    obtain ⟨j, x⟩ := c
    by_cases h1 : i < j
    · simp [Memory.write, Memory.read, h1, h]
    · by_cases h2 : i = j
      · subst h2; simp [Memory.write, Memory.read, h]
      · by_cases h3 : k = j
        · simp [Memory.write, Memory.read, h1, h2, h3]
        · simp [Memory.write, Memory.read, h1, h2, h3, ih]

/-- A cell of the buffer after a write is the written one or was there before. -/
theorem Memory.mem_write {m : Memory} {i : Nat} {b : Byte} {c : Host.Cell} (h : c ∈ m.write i b) :
    c = (i, b) ∨ c ∈ m := by
  induction m with
  | nil => simpa [Memory.write] using h
  | cons d rest ih =>
    obtain ⟨j, x⟩ := d
    simp only [Memory.write] at h
    split at h
    · simpa using h
    · split at h
      · rcases List.mem_cons.1 h with h | h
        · exact .inl h
        · exact .inr (List.mem_cons_of_mem _ h)
      · rcases List.mem_cons.1 h with h | h
        · exact .inr (by simp [h])
        · exact (ih h).imp id (List.mem_cons_of_mem _)

theorem Memory.below_write {m : Memory} {i n : Nat} {b : Byte} (hm : m.below n) (hi : i < n) :
    (m.write i b).below n := by
  intro c hc
  rcases Memory.mem_write hc with rfl | h
  · exact hi
  · exact hm c h

/-- A write keeps the canonical form. -/
theorem Memory.wf_write {m : Memory} {i : Nat} {b : Byte} (h : m.wf = true) : (m.write i b).wf = true := by
  induction m with
  | nil => simp [Memory.write, Memory.wf]
  | cons c rest ih =>
    obtain ⟨j, x⟩ := c
    simp only [Memory.wf, Bool.and_eq_true, List.all_eq_true, decide_eq_true_eq] at h
    obtain ⟨hall, hrest⟩ := h
    by_cases h1 : i < j
    · simp only [Memory.write, h1, if_true, Memory.wf, Bool.and_eq_true, List.all_eq_true, decide_eq_true_eq]
      refine ⟨fun c hc => ?_, hall, hrest⟩
      rcases List.mem_cons.1 hc with rfl | hc
      · exact h1
      · exact lt_trans h1 (hall c hc)
    · by_cases h2 : i = j
      · subst h2
        simp only [Memory.write, lt_irrefl, if_false, if_true, Memory.wf, Bool.and_eq_true, List.all_eq_true,
          decide_eq_true_eq]
        exact ⟨hall, hrest⟩
      · simp only [Memory.write, h1, h2, if_false, Memory.wf, Bool.and_eq_true, List.all_eq_true, decide_eq_true_eq]
        refine ⟨fun c hc => ?_, ih hrest⟩
        rcases Memory.mem_write hc with rfl | hc
        · exact lt_of_le_of_ne (not_lt.1 h1) (Ne.symm h2)
        · exact hall c hc

/-! Writes of several bytes. -/

/-- An index outside the stored bytes reads as before. -/
theorem Memory.read_writeAll_of_outside {bytes : List Byte} {m : Memory} {i k : Nat}
    (h : k < i ∨ i + bytes.length ≤ k) : (m.writeAll i bytes).read k = m.read k := by
  induction bytes generalizing m i with
  | nil => rfl
  | cons b rest ih =>
    simp only [List.length_cons] at h
    rw [Memory.writeAll, ih (by omega), Memory.read_write_of_ne (by omega)]

/-- The stored bytes read back, the first at the lowest index. -/
theorem Memory.read_writeAll_inside {bytes : List Byte} {m : Memory} {i k : Nat} (h : k < bytes.length) :
    (m.writeAll i bytes).read (i + k) = bytes[k]? := by
  induction bytes generalizing m i k with
  | nil => simp at h
  | cons b rest ih =>
    rw [Memory.writeAll]
    cases k with
    | zero => rw [Memory.read_writeAll_of_outside (by omega)]; simp
    | succ k =>
      have := ih (m := m.write i b) (i := i + 1) (k := k) (by simpa using h)
      rw [show i + (k + 1) = i + 1 + k by omega, this]; simp

theorem Memory.below_writeAll {bytes : List Byte} {m : Memory} {i n : Nat} (hm : m.below n)
    (hi : i + bytes.length ≤ n) : (m.writeAll i bytes).below n := by
  induction bytes generalizing m i with
  | nil => exact hm
  | cons b rest ih =>
    simp only [List.length_cons] at hi
    exact ih (Memory.below_write hm (by omega)) (by omega)

theorem Memory.wf_writeAll {bytes : List Byte} {m : Memory} {i : Nat} (h : m.wf = true) :
    (m.writeAll i bytes).wf = true := by
  induction bytes generalizing m i with
  | nil => exact h
  | cons b rest ih => exact ih (Memory.wf_write h)

/-- Appending bytes where the written prefix ends extends the written prefix. -/
theorem Memory.written_writeAll {bytes : List Byte} {m : Memory} {n : Nat} (h : m.written n) :
    (m.writeAll n bytes).written (n + bytes.length) := by
  intro i hi
  by_cases hlt : i < n
  · rw [Memory.read_writeAll_of_outside (.inl hlt)]; exact h i hlt
  · obtain ⟨k, rfl⟩ := Nat.exists_eq_add_of_le (not_lt.1 hlt)
    rw [Memory.read_writeAll_inside (by omega)]; simp; omega

end Sys2Proof.Machine
end

