-- ==== Sys2Proof/Laws/Operands.lean ====
section
/-! SUPPORT. The facts about the protocol constants on which every correctness property rests (R53), and what the wire format's
functions give. -/

namespace Sys2Proof

/-- The mask is its own inverse (R53 a). -/
@[simp] theorem maskByte_maskByte (b : Byte) : maskByte (maskByte b) = b := by
  simp [maskByte]

/-- The special bytes (R4). -/
theorem isSpecial_iff : ∀ b : Byte, isSpecial b = true ↔ b ∈ ([0x7F, 0x7E, 0x7D] : List Byte) := by
  decide

/-- The escape codes (R53): what unmasks to a special byte. -/
theorem isSpecial_maskByte_iff :
    ∀ b : Byte, isSpecial (maskByte b) = true ↔ b ∈ ([0x5D, 0x5E, 0x5F] : List Byte) := by
  decide

/-- No escape code is special, so the second byte of a pair is never taken for a delimiter (R53 b). -/
theorem not_isSpecial_of_isSpecial_maskByte : ∀ b : Byte, isSpecial (maskByte b) = true → isSpecial b = false := by
  decide

/-- The mask of a special byte is not START. -/
theorem maskByte_ne_start_of_isSpecial : ∀ b : Byte, isSpecial b = true → maskByte b ≠ Config.startByte := by
  decide

theorem escapeSeq_of_special {b : Byte} (h : isSpecial b = true) : escapeSeq b = [Config.escapeByte, maskByte b] := by
  simp [escapeSeq, h]

theorem escapeSeq_of_ordinary {b : Byte} (h : isSpecial b = false) : escapeSeq b = [b] := by
  simp [escapeSeq, h]

/-- An escape sequence has two bytes for a special byte and one for an ordinary one (R51). -/
theorem escapeSeq_length (b : Byte) : (escapeSeq b).length = if isSpecial b then 2 else 1 := by
  unfold escapeSeq; split <;> rfl

end Sys2Proof
end

