-- ==== Sys2Proof/Laws/State.lean ====
section
/-! SUPPORT. One lemma per field per update of the state, so that no later proof unfolds a record update. -/

namespace Sys2Proof.Machine

variable (s : State)

@[simp] theorem State.putEnc_enc (r : Enc × EncRsp) : (s.putEnc r).enc = r.1 := rfl
@[simp] theorem State.putEnc_dec (r : Enc × EncRsp) : (s.putEnc r).dec = s.dec := rfl
@[simp] theorem State.putEnc_rsp (r : Enc × EncRsp) : (s.putEnc r).rsp = [.enc r.2] := rfl
@[simp] theorem State.putEnc_inputs (r : Enc × EncRsp) : (s.putEnc r).inputs = s.inputs := rfl

@[simp] theorem State.putDec_enc (r : Dec × DecRsp) : (s.putDec r).enc = s.enc := rfl
@[simp] theorem State.putDec_dec (r : Dec × DecRsp) : (s.putDec r).dec = r.1 := rfl
@[simp] theorem State.putDec_rsp (r : Dec × DecRsp) : (s.putDec r).rsp = [.dec r.2] := rfl
@[simp] theorem State.putDec_inputs (r : Dec × DecRsp) : (s.putDec r).inputs = s.inputs := rfl

@[simp] theorem State.putFeed_enc (r : Dec × List DecRsp) : (s.putFeed r).enc = s.enc := rfl
@[simp] theorem State.putFeed_dec (r : Dec × List DecRsp) : (s.putFeed r).dec = r.1 := rfl
@[simp] theorem State.putFeed_rsp (r : Dec × List DecRsp) : (s.putFeed r).rsp = r.2.map .dec := rfl
@[simp] theorem State.putFeed_inputs (r : Dec × List DecRsp) : (s.putFeed r).inputs = s.inputs := rfl

@[simp] theorem State.idle_enc : s.idle.enc = s.enc := rfl
@[simp] theorem State.idle_dec : s.idle.dec = s.dec := rfl
@[simp] theorem State.idle_rsp : s.idle.rsp = [] := rfl
@[simp] theorem State.idle_inputs : s.idle.inputs = s.inputs := rfl

@[simp] theorem State.hardReset_enc_enc : (s.hardReset .enc).enc = s.enc.clear := rfl
@[simp] theorem State.hardReset_enc_dec : (s.hardReset .enc).dec = s.dec := rfl
@[simp] theorem State.hardReset_dec_enc : (s.hardReset .dec).enc = s.enc := rfl
@[simp] theorem State.hardReset_dec_dec : (s.hardReset .dec).dec = s.dec.clear := rfl
@[simp] theorem State.hardReset_rsp (block : Block) : (s.hardReset block).rsp = [] := by cases block <;> rfl
@[simp] theorem State.hardReset_inputs (block : Block) : (s.hardReset block).inputs = s.inputs := by
  cases block <;> rfl

@[simp] theorem State.withInputs_enc (l : List Input) : (s.withInputs l).enc = s.enc := rfl
@[simp] theorem State.withInputs_dec (l : List Input) : (s.withInputs l).dec = s.dec := rfl
@[simp] theorem State.withInputs_rsp (l : List Input) : (s.withInputs l).rsp = s.rsp := rfl
@[simp] theorem State.withInputs_inputs (l : List Input) : (s.withInputs l).inputs = l := rfl

@[simp] theorem State.present_enc (x : Input) : (s.present x).enc = s.enc := rfl
@[simp] theorem State.present_dec (x : Input) : (s.present x).dec = s.dec := rfl
@[simp] theorem State.present_rsp (x : Input) : (s.present x).rsp = s.rsp := rfl
@[simp] theorem State.present_inputs (x : Input) : (s.present x).inputs = x :: s.inputs := rfl

/-! The blocks' own updates. -/

@[simp] theorem Enc.clear_cap (e : Enc) : e.clear.cap = e.cap := rfl
@[simp] theorem Enc.clear_len (e : Enc) : e.clear.len = 0 := rfl
@[simp] theorem Enc.clear_buf (e : Enc) : e.clear.buf = e.buf := rfl

@[simp] theorem Dec.clear_cap (d : Dec) : d.clear.cap = d.cap := rfl
@[simp] theorem Dec.clear_len (d : Dec) : d.clear.len = 0 := rfl
@[simp] theorem Dec.clear_buf (d : Dec) : d.clear.buf = d.buf := rfl
@[simp] theorem Dec.clear_st (d : Dec) : d.clear.st = .awaitingStart := rfl

@[simp] theorem Dec.store_cap (d : Dec) (b : Byte) : (d.store b).cap = d.cap := rfl
@[simp] theorem Dec.store_len (d : Dec) (b : Byte) : (d.store b).len = d.len + 1 := rfl
@[simp] theorem Dec.store_buf (d : Dec) (b : Byte) : (d.store b).buf = d.buf.write d.len b := rfl
@[simp] theorem Dec.store_st (d : Dec) (b : Byte) : (d.store b).st = d.st := rfl

end Sys2Proof.Machine
end

