-- ==== Sys2Proof/Laws/Ops.lean ====
section
/-! SUPPORT. What each shared operation can do, said once: the append of ENC, the decode step of DEC, the step. -/

namespace Sys2Proof.Machine

/-- Everything an append can do: all bytes stored and `ok`, or nothing changed and `fail`. -/
theorem Enc.append_cases (e : Enc) (bytes : List Byte) :
    (bytes.length ≤ e.cap - e.len ∧
      e.append bytes = ({ e with buf := e.buf.writeAll e.len bytes, len := e.len + bytes.length }, .ok)) ∨
    (e.cap - e.len < bytes.length ∧ e.append bytes = (e, .fail)) := by
  by_cases h : bytes.length ≤ e.rem
  · exact .inl ⟨h, by simp [Enc.append, h]⟩
  · exact .inr ⟨not_le.1 h, by simp [Enc.append, h, Enc.raiseNoSpace]⟩

theorem Enc.append_ok {e : Enc} {bytes : List Byte} (h : bytes.length ≤ e.cap - e.len) :
    e.append bytes = ({ e with buf := e.buf.writeAll e.len bytes, len := e.len + bytes.length }, .ok) := by
  simp [Enc.append, Enc.rem, h]

theorem Enc.append_fail {e : Enc} {bytes : List Byte} (h : e.cap - e.len < bytes.length) :
    e.append bytes = (e, .fail) := by
  simp [Enc.append, Enc.rem, Enc.raiseNoSpace, Nat.not_le.2 h]

@[simp] theorem Enc.append_cap (e : Enc) (bytes : List Byte) : (e.append bytes).1.cap = e.cap := by
  obtain ⟨-, h⟩ | ⟨-, h⟩ := e.append_cases bytes <;> rw [h]

/-- WRITE appends the escape sequence of its byte. -/
theorem Enc.write_eq (e : Enc) (b : Byte) : e.write b = e.append (escapeSeq b) := by
  unfold Enc.write escapeSeq Enc.writeSpecial Enc.writeOrdinary
  split <;> rfl

/-- ENC's capacity is a constant. -/
@[simp] theorem Enc.write_cap (e : Enc) (b : Byte) : (e.write b).1.cap = e.cap := by rw [Enc.write_eq]; simp

/-- Append keeps the invariant of ENC. -/
theorem Enc.append_inv {e : Enc} (h : e.Inv) (bytes : List Byte) : (e.append bytes).1.Inv := by
  obtain ⟨hr, he⟩ | ⟨-, he⟩ := e.append_cases bytes
  · rw [he]
    have := h.len_le
    exact ⟨by show e.len + bytes.length ≤ e.cap; omega,
      Memory.below_writeAll h.below (by show e.len + bytes.length ≤ e.cap; omega), Memory.written_writeAll h.written, Memory.wf_writeAll h.wf⟩
  · rw [he]; exact h

/-- Setting the length to 0 keeps the invariant of ENC. -/
theorem Enc.clear_inv {e : Enc} (h : e.Inv) : e.clear.Inv :=
  ⟨Nat.zero_le _, h.below, fun i hi => absurd hi (Nat.not_lt_zero i), h.wf⟩

/-- Setting the length to 0 keeps the invariant of DEC. -/
theorem Dec.clear_inv {d : Dec} (h : d.Inv) : d.clear.Inv :=
  ⟨Nat.zero_le _, h.below, fun i hi => absurd hi (Nat.not_lt_zero i), h.wf⟩

/-- Storing a byte where there is room keeps the invariant of DEC. -/
theorem Dec.store_inv {d : Dec} (h : d.Inv) (b : Byte) (hr : d.len < d.cap) : (d.store b).Inv :=
  ⟨hr, Memory.below_write h.below hr, Memory.written_writeAll (bytes := [b]) h.written, Memory.wf_write h.wf⟩

/-- A change of DEC's state register keeps the invariant of DEC. -/
theorem Dec.inv_st {d : Dec} (h : d.Inv) (st : DecState) : ({ d with st := st } : Dec).Inv :=
  ⟨h.len_le, h.below, h.written, h.wf⟩

/-- Everything a received byte can do, with the condition under which it does so (R103). -/
theorem Dec.rx_cases (d : Dec) (b : Byte) :
    (b = Config.startByte ∧ d.rx b = d.resync) ∨
    (b ≠ Config.startByte ∧ (d.st = .awaitingStart ∨ d.st = .error) ∧ d.rx b = (d, .pending)) ∨
    (b = Config.escapeByte ∧ d.st = .inMessage ∧ d.rx b = ({ d with st := .inEscape }, .pending)) ∨
    (b = Config.endByte ∧ d.st = .inMessage ∧ d.rx b = ({ d with st := .awaitingStart }, .complete d.len)) ∨
    (isSpecial b = false ∧ d.st = .inMessage ∧ d.len < d.cap ∧ d.rx b = (d.store b, .pending)) ∨
    (isSpecial b = false ∧ d.st = .inMessage ∧ d.cap ≤ d.len ∧ d.rx b = ({ d with st := .error }, .error)) ∨
    (b ≠ Config.startByte ∧ isSpecial (maskByte b) = true ∧ d.st = .inEscape ∧ d.len < d.cap ∧
      d.rx b = ({ d.store (maskByte b) with st := .inMessage }, .pending)) ∨
    (b ≠ Config.startByte ∧ (isSpecial (maskByte b) = false ∨ d.cap ≤ d.len) ∧ d.st = .inEscape ∧
      d.rx b = ({ d with st := .error }, .error)) := by
  unfold Dec.rx
  by_cases hS : b = Config.startByte
  · exact .inl ⟨hS, by simp [hS]⟩
  right
  cases hst : d.st with
  | awaitingStart => exact .inl ⟨hS, .inl rfl, by simp [hS, Dec.discard]⟩
  | error => exact .inl ⟨hS, .inr rfl, by simp [hS, Dec.discard]⟩
  | inMessage =>
    right
    by_cases hX : b = Config.escapeByte
    · exact .inl ⟨hX, rfl, by simp [hX, Dec.beginEscape, show Config.escapeByte ≠ Config.startByte by decide]⟩
    right
    by_cases hE : b = Config.endByte
    · exact .inl ⟨hE, rfl, by simp [hE, Dec.deliver, show Config.endByte ≠ Config.startByte by decide,
        show Config.endByte ≠ Config.escapeByte by decide]⟩
    right
    have hs : isSpecial b = false := by simp [isSpecial, hS, hX, hE]
    by_cases hr : d.len < d.cap
    · exact .inl ⟨hs, rfl, hr, by simp [hS, hX, hE, Dec.payloadByte, Dec.rem, hr]⟩
    · exact .inr (.inl ⟨hs, rfl, by omega, by simp [hS, hX, hE, Dec.payloadByte, Dec.rem, hr, Dec.raise]⟩)
  | inEscape =>
    right; right; right; right; right
    by_cases hs : isSpecial (maskByte b) = true
    · by_cases hr : d.len < d.cap
      · exact .inl ⟨hS, hs, rfl, hr, by simp [hS, Dec.escapedByte, hs, Dec.rem, hr]⟩
      · exact .inr ⟨hS, .inr (by omega), rfl, by simp [hS, Dec.escapedByte, hs, Dec.rem, hr, Dec.raise]⟩
    · simp only [Bool.not_eq_true] at hs
      exact .inr ⟨hS, .inl hs, rfl, by simp [hS, Dec.escapedByte, hs, Dec.raise]⟩

/-- DEC's capacity is a constant. -/
@[simp] theorem Dec.rx_cap (d : Dec) (b : Byte) : (d.rx b).1.cap = d.cap := by
  obtain ⟨-, h⟩ | ⟨-, -, h⟩ | ⟨-, -, h⟩ | ⟨-, -, h⟩ | ⟨-, -, -, h⟩ | ⟨-, -, -, h⟩ | ⟨-, -, -, -, h⟩ | ⟨-, -, -, h⟩ :=
    d.rx_cases b <;> rw [h] <;> rfl

/-- A received byte keeps the invariant of DEC. -/
theorem Dec.rx_inv {d : Dec} (hi : d.Inv) (b : Byte) : (d.rx b).1.Inv := by
  obtain ⟨-, h⟩ | ⟨-, -, h⟩ | ⟨-, -, h⟩ | ⟨-, -, h⟩ | ⟨-, -, hr, h⟩ | ⟨-, -, -, h⟩ | ⟨-, -, -, hr, h⟩ | ⟨-, -, -, h⟩ :=
    d.rx_cases b <;> rw [h]
  · exact Dec.inv_st (Dec.clear_inv hi) .inMessage
  · exact hi
  · exact Dec.inv_st hi _
  · exact Dec.inv_st hi _
  · exact Dec.store_inv hi b hr
  · exact Dec.inv_st hi _
  · exact Dec.inv_st (Dec.store_inv hi _ hr) _
  · exact Dec.inv_st hi _

@[simp] theorem Dec.feed_nil (d : Dec) : d.feed [] = (d, []) := rfl

@[simp] theorem Dec.feed_cons (d : Dec) (b : Byte) (bytes : List Byte) :
    d.feed (b :: bytes) = (((d.rx b).1.feed bytes).1, (d.rx b).2 :: ((d.rx b).1.feed bytes).2) := rfl

/-- Feeding two stretches of bytes is feeding them one after the other. -/
theorem Dec.feed_append (d : Dec) (xs ys : List Byte) :
    d.feed (xs ++ ys) = (((d.feed xs).1.feed ys).1, (d.feed xs).2 ++ ((d.feed xs).1.feed ys).2) := by
  induction xs generalizing d with
  | nil => rfl
  | cons b xs ih => simp [ih]

/-- Feeding bytes keeps the invariant of DEC. -/
theorem Dec.feed_inv {d : Dec} (hi : d.Inv) (bytes : List Byte) : (d.feed bytes).1.Inv := by
  induction bytes generalizing d with
  | nil => exact hi
  | cons b bytes ih => exact ih (Dec.rx_inv hi b)

@[simp] theorem Dec.feed_cap (d : Dec) (bytes : List Byte) : (d.feed bytes).1.cap = d.cap := by
  induction bytes generalizing d with
  | nil => rfl
  | cons b bytes ih => simp [ih]

/-- In AwaitingStart and in Error, bytes other than START change nothing (T2, T7). -/
theorem Dec.feed_discard {d : Dec} (hd : d.st = .awaitingStart ∨ d.st = .error) {bytes : List Byte}
    (hb : Config.startByte ∉ bytes) : d.feed bytes = (d, List.replicate bytes.length .pending) := by
  induction bytes with
  | nil => rfl
  | cons b bytes ih =>
    simp only [List.mem_cons, not_or] at hb
    have hrx : d.rx b = (d, .pending) := by
      rcases hd with hd | hd <;> simp [Dec.rx, Ne.symm hb.1, hd, Dec.discard]
    simp [hrx, ih hb.2, List.replicate_succ]

/-- What a step of ENC is, by command: everything is an append, after START has cleared the length. -/
theorem Enc.cmd_eq (e : Enc) (c : EncCmd) :
    e.cmd c = match c with
      | .reset => (e.clear, .ok)
      | .start => e.clear.append [Config.startByte]
      | .write b => e.append (escapeSeq b)
      | .finish => e.append [Config.endByte] := by
  cases c with
  | write b => exact Enc.write_eq e b
  | reset | start | finish => rfl

/-- Every command keeps the invariant of ENC. -/
theorem Enc.cmd_inv {e : Enc} (h : e.Inv) (c : EncCmd) : (e.cmd c).1.Inv := by
  rw [Enc.cmd_eq]
  cases c with
  | reset => exact Enc.clear_inv h
  | start => exact Enc.append_inv (Enc.clear_inv h) _
  | write b => exact Enc.append_inv h _
  | finish => exact Enc.append_inv h _

/-- An ENC row is the step of ENC on its command. -/
theorem exec_of_encCmd {i : Instr} {c : EncCmd} (h : i.encCmd = some c) (s : State) :
    exec i s = .next (s.putEnc (s.enc.cmd c)) := by
  cases i <;> simp only [Instr.encCmd, Option.some.injEq, reduceCtorEq] at h <;> subst h <;> rfl

/-- An RX row is the decode step on its byte. -/
theorem exec_of_rxByte {i : Instr} {b : Byte} (h : i.rxByte = some b) (s : State) :
    exec i s = .next (s.putDec (s.dec.rx b)) := by
  cases i <;> simp only [Instr.rxByte, Option.some.injEq, reduceCtorEq] at h <;> subst h <;> rfl

/-- A WIRE row is a feed of its bytes. -/
theorem exec_of_wireBytes {i : Instr} {bytes : List Byte} (h : i.wireBytes = some bytes) (s : State) :
    exec i s = .next (s.putFeed (s.dec.feed bytes)) := by
  cases i <;> simp only [Instr.wireBytes, Option.some.injEq, reduceCtorEq] at h <;> subst h <;> rfl

/-- Everything `exec` can do: one step of ENC, DEC.RESET, one decode step, or a feed of a unit's bytes. -/
theorem exec_cases (i : Instr) (s : State) :
    (∃ c, i.encCmd = some c ∧ exec i s = .next (s.putEnc (s.enc.cmd c))) ∨
    (∃ data, i = .decReset data ∧ exec i s = .next (s.putDec s.dec.resetCmd)) ∨
    (∃ b, i.rxByte = some b ∧ exec i s = .next (s.putDec (s.dec.rx b))) ∨
    (∃ bytes, i.wireBytes = some bytes ∧ exec i s = .next (s.putFeed (s.dec.feed bytes))) := by
  cases i with
  | encReset | encStart | encWriteSpecial7D | encWriteSpecial7E | encWriteSpecial7F | encWriteOrdinary | encWrite
  | encEnd => exact .inl ⟨_, rfl, rfl⟩
  | decReset data => exact .inr (.inl ⟨data, rfl, rfl⟩)
  | decRxStart | decRxEnd | decRxEsc | decRxEsccode5D | decRxEsccode5E | decRxEsccode5F | decRxData
  | decRx => exact .inr (.inr (.inl ⟨_, rfl, rfl⟩))
  | wireStart | wireEnd | wireE7D | wireE7E | wireE7F | wireEOrdinary => exact .inr (.inr (.inr ⟨_, rfl, rfl⟩))

/-- A run of two stretches of instructions is one run after the other. -/
theorem execAll_append (s : State) (xs ys : List Instr) :
    execAll s (xs ++ ys) =
      (execAll s xs).bind fun r => (execAll r.1 ys).map fun q => (q.1, r.2 ++ q.2) := by
  induction xs generalizing s with
  | nil => simp [execAll]
  | cons i xs ih =>
    simp only [List.cons_append, execAll]
    cases exec i s with
    | fault | refused => rfl
    | next t =>
      simp only [ih]
      cases execAll t xs with
      | none => rfl
      | some r => simp [Function.comp_def]

/-- The commands of `dec.feed` do what the feed does, and touch nothing of ENC. -/
theorem execAll_feedInstrs (s : State) (bytes : List Byte) :
    ∃ t, execAll s (feedInstrs bytes) = some (t, (s.dec.feed bytes).2.map .dec) ∧
      t.dec = (s.dec.feed bytes).1 ∧ t.enc = s.enc ∧ t.inputs = s.inputs := by
  induction bytes generalizing s with
  | nil => exact ⟨s, rfl, rfl, rfl, rfl⟩
  | cons b bytes ih =>
    obtain ⟨t, h1, h2, h3, h4⟩ := ih (s.putDec (s.dec.rx b))
    refine ⟨t, ?_, h2, h3, h4⟩
    show (execAll (s.putDec (s.dec.rx b)) (feedInstrs bytes)).map _ = _
    rw [h1]
    rfl

end Sys2Proof.Machine
end

