-- ==== Sys2Proof/Laws/PerInstr.lean ====
section
/-! SUPPORT. Statements made per instruction. The family ClassRow: the row a first-match decoder reaches for a well-formed
instruction's words is itself well-formed, and is reached from itself (30_encoding.md section 5). -/

namespace Sys2Proof.Laws.ClassRow

def Statement (i : Instr) : Prop :=
  i.WellFormed = true → i.classRow.WellFormed = true ∧ i.classRow.classRow = i.classRow

theorem encReset (d : Byte) : Statement (.encReset d) := fun _ => ⟨rfl, rfl⟩
theorem encStart (d : Byte) : Statement (.encStart d) := fun _ => ⟨rfl, rfl⟩
theorem encWriteSpecial7D : Statement .encWriteSpecial7D := fun _ => ⟨rfl, rfl⟩
theorem encWriteSpecial7E : Statement .encWriteSpecial7E := fun _ => ⟨rfl, rfl⟩
theorem encWriteSpecial7F : Statement .encWriteSpecial7F := fun _ => ⟨rfl, rfl⟩
theorem encWriteOrdinary (b : Byte) : Statement (.encWriteOrdinary b) := fun h => ⟨h, rfl⟩
theorem encEnd (d : Byte) : Statement (.encEnd d) := fun _ => ⟨rfl, rfl⟩
theorem decReset (d : Byte) : Statement (.decReset d) := fun _ => ⟨rfl, rfl⟩
theorem decRxStart : Statement .decRxStart := fun _ => ⟨rfl, rfl⟩
theorem decRxEnd : Statement .decRxEnd := fun _ => ⟨rfl, rfl⟩
theorem decRxEsc : Statement .decRxEsc := fun _ => ⟨rfl, rfl⟩
theorem decRxEsccode5D : Statement .decRxEsccode5D := fun _ => ⟨rfl, rfl⟩
theorem decRxEsccode5E : Statement .decRxEsccode5E := fun _ => ⟨rfl, rfl⟩
theorem decRxEsccode5F : Statement .decRxEsccode5F := fun _ => ⟨rfl, rfl⟩
theorem decRxData (b : Byte) : Statement (.decRxData b) := fun h => ⟨h, rfl⟩
theorem wireStart : Statement .wireStart := fun _ => ⟨rfl, rfl⟩
theorem wireEnd : Statement .wireEnd := fun _ => ⟨rfl, rfl⟩
theorem wireE7D : Statement .wireE7D := fun _ => ⟨rfl, rfl⟩
theorem wireE7E : Statement .wireE7E := fun _ => ⟨rfl, rfl⟩
theorem wireE7F : Statement .wireE7F := fun _ => ⟨rfl, rfl⟩
theorem wireEOrdinary (x : Byte) : Statement (.wireEOrdinary x) := fun h => ⟨h, rfl⟩

theorem encWrite (b : Byte) : Statement (.encWrite b) := by
  intro _
  simp only [Instr.classRow, encWriteRow]
  split
  · exact ⟨rfl, rfl⟩
  split
  · exact ⟨rfl, rfl⟩
  split
  · exact ⟨rfl, rfl⟩
  · simp_all [Instr.WellFormed, isSpecial, Config.startByte, Config.endByte, Config.escapeByte]

/-- The six values with a row of their own; every other byte is of class DATA (R54). -/
theorem classify_data_of_notMem :
    ∀ b : Byte, b ∉ ([0x7F, 0x7E, 0x7D, 0x5D, 0x5E, 0x5F] : List Byte) → classify b = .data := by
  decide

theorem decRx (b : Byte) : Statement (.decRx b) := by
  intro _
  simp only [Instr.classRow, decRxRow]
  split
  · exact ⟨rfl, rfl⟩
  split
  · exact ⟨rfl, rfl⟩
  split
  · exact ⟨rfl, rfl⟩
  split
  · exact ⟨rfl, rfl⟩
  split
  · exact ⟨rfl, rfl⟩
  split
  · exact ⟨rfl, rfl⟩
  · have := classify_data_of_notMem b
    simp_all [Instr.WellFormed]

end Sys2Proof.Laws.ClassRow
end

