-- ==== Sys2Proof/Tests/Slice0.lean ====
section
/-! SUPPORT. The model's own tests. Expected results are from spec/95_test_vectors.md (named V-…, S-…, Q-…) or worked out by
hand from the rule named. The words are written out bit by bit from the encodings of spec/30_encoding.md. The last part has
a witness for the hypotheses of every statement, at the boundaries of its clauses. -/

namespace Sys2Proof.Tests

open Sys2Proof.Machine

/-! Small states, and what a test looks at. -/

/-- A buffer with these bytes from index 0 on. -/
def bufOf (bytes : List Byte) : Memory := Memory.writeAll [] 0 bytes

/-- ENC with a capacity and `bytes` below its length; DEC of capacity 4, after reset. -/
def encAt (cap : Nat) (bytes : List Byte) : State :=
  { enc := { cap := cap, len := bytes.length, buf := bufOf bytes }
    dec := { cap := 4, len := 0, buf := [], st := .awaitingStart }
    rsp := [], inputs := [] }

/-- DEC with a capacity, a state and `bytes` below its length; ENC of capacity 8, after reset. -/
def decAt (cap : Nat) (st : DecState) (bytes : List Byte) : State :=
  { enc := { cap := 8, len := 0, buf := [] }
    dec := { cap := cap, len := bytes.length, buf := bufOf bytes, st := st }
    rsp := [], inputs := [] }

/-- The next state, where there is one. -/
def nextOf : Host.Outcome State Fault Refusal → Option State
  | .next s => some s
  | .fault _ => none
  | .refused _ => none

/-- What a test of ENC looks at: responses, length, and the whole buffer. -/
def encSeen (i : Instr) (s : State) : Option (List Rsp × Nat × List (Option Byte)) :=
  (nextOf (exec i s)).map fun t => (t.rsp, t.enc.len, (List.range t.enc.cap).map t.enc.buf.read)

/-- What a test of DEC looks at: responses, state, length, and the whole buffer. -/
def decSeen (i : Instr) (s : State) : Option (List Rsp × DecState × Nat × List (Option Byte)) :=
  (nextOf (exec i s)).map fun t => (t.rsp, t.dec.st, t.dec.len, (List.range t.dec.cap).map t.dec.buf.read)

/-! WellFormed: one ill-formed term for each check. -/

theorem test_wf_refuses_ordinary_write_of_a_special_byte : (Instr.encWriteOrdinary 0x7E).WellFormed = false := by decide
theorem test_wf_refuses_data_of_an_escape_code : (Instr.decRxData 0x5D).WellFormed = false := by decide
theorem test_wf_refuses_data_of_start : (Instr.decRxData 0x7F).WellFormed = false := by decide
theorem test_wf_refuses_ordinary_unit_of_a_special_byte : (Instr.wireEOrdinary 0x7D).WellFormed = false := by decide
theorem test_wf_accepts : (Instr.encWriteOrdinary 0x5D).WellFormed = true ∧ (Instr.decRxData 0x41).WellFormed = true ∧
    (Instr.wireEOrdinary 0x5F).WellFormed = true := by decide

/-! Decoding: each constructor's word, bit by bit (R57, R59, R50, R51). -/

theorem test_dec_enc_reset : decodeEnc 0b0010100101 = .encReset 0b10100101 := by decide
theorem test_dec_enc_start : decodeEnc 0b0111111111 = .encStart 0b11111111 := by decide
theorem test_dec_enc_write_7D : decodeEnc 0b1001111101 = .encWriteSpecial7D := by decide
theorem test_dec_enc_write_7E : decodeEnc 0b1001111110 = .encWriteSpecial7E := by decide
theorem test_dec_enc_write_7F : decodeEnc 0b1001111111 = .encWriteSpecial7F := by decide
theorem test_dec_enc_write_ordinary : decodeEnc 0b1001000001 = .encWriteOrdinary 0b01000001 := by decide
theorem test_dec_enc_write_below_special : decodeEnc 0b1001111100 = .encWriteOrdinary 0b01111100 := by decide
theorem test_dec_enc_write_above_special : decodeEnc 0b1010000000 = .encWriteOrdinary 0b10000000 := by decide
theorem test_dec_enc_end : decodeEnc 0b1110100101 = .encEnd 0b10100101 := by decide
theorem test_dec_dec_reset : decodeDec 0b010101011 = .decReset 0b10101011 := by decide
theorem test_dec_rx_start : decodeDec 0b101111111 = .decRxStart := by decide
theorem test_dec_rx_end : decodeDec 0b101111110 = .decRxEnd := by decide
theorem test_dec_rx_esc : decodeDec 0b101111101 = .decRxEsc := by decide
theorem test_dec_rx_5D : decodeDec 0b101011101 = .decRxEsccode5D := by decide
theorem test_dec_rx_5E : decodeDec 0b101011110 = .decRxEsccode5E := by decide
theorem test_dec_rx_5F : decodeDec 0b101011111 = .decRxEsccode5F := by decide
theorem test_dec_rx_data : decodeDec 0b101000001 = .decRxData 0b01000001 := by decide
theorem test_dec_rx_below_codes : decodeDec 0b101011100 = .decRxData 0b01011100 := by decide
theorem test_dec_wire_start : decodeLine [0b01111111, 0b01000001] = .instr .wireStart [0b01000001] := by decide
theorem test_dec_wire_end : decodeLine [0b01111110] = .instr .wireEnd [] := by decide
theorem test_dec_wire_7D : decodeLine [0b01111101, 0b01011101] = .instr .wireE7D [] := by decide
theorem test_dec_wire_7E : decodeLine [0b01111101, 0b01011110] = .instr .wireE7E [] := by decide
theorem test_dec_wire_7F : decodeLine [0b01111101, 0b01011111, 0b01111110] = .instr .wireE7F [0b01111110] := by decide
theorem test_dec_wire_ordinary : decodeLine [0b01000001] = .instr (.wireEOrdinary 0b01000001) [] := by decide

/-- The group rows have the words of the whole command, which decode to the class row of their byte. -/
theorem test_dec_group_rows :
    encode (.encWrite 0x41) = .enc ⟨false, some 0b1001000001⟩ ∧ encode (.decRx 0x5D) = .dec ⟨false, some 0b101011101⟩ ∧
    decode (encode (.encWrite 0x41)) = .instr (.encWriteOrdinary 0x41) [] ∧
    decode (encode (.decRx 0x5D)) = .instr .decRxEsccode5D [] := by decide

/-- R55, R56 and the inputs that carry no instruction. -/
theorem test_decode_rejects :
    decodeLine [] = .rejected .nothingPresented ∧ decodeLine [0x7D] = .rejected .truncatedEscape ∧
    decodeLine [0x7D, 0x41] = .rejected (.notAnEscapePair 0x41) ∧ decode (.line [0x41, 0x42]) = .rejected .trailingBytes ∧
    decode (.enc ⟨false, none⟩) = .rejected .nothingPresented ∧ decode (.dec ⟨true, some 0x17F⟩) = .rejected .resetAsserted := by
  decide

/-- The canonical words of 95_test_vectors.md, "word". -/
theorem test_encode :
    encode (.encReset 0) = .enc ⟨false, some 0x000⟩ ∧ encode (.encStart 0) = .enc ⟨false, some 0x100⟩ ∧
    encode (.encWrite 0x41) = .enc ⟨false, some 0x241⟩ ∧ encode (.encEnd 0) = .enc ⟨false, some 0x300⟩ ∧
    encode (.decReset 0) = .dec ⟨false, some 0x000⟩ ∧ encode (.decRx 0x41) = .dec ⟨false, some 0x141⟩ ∧
    encode .wireE7E = .line [0x7D, 0x5E] := by decide

/-- One table word for each port (log entry 12). -/
theorem test_table_words :
    decodeTableWord 16 0x000 = some (.encReset 0) ∧ decodeTableWord 16 0x300 = some (.encEnd 0) ∧
    decodeTableWord 16 0x17E = some .decRxEnd ∧ decodeTableWord 16 0x7D5E = some .wireE7E ∧
    decodeTableWord 8 0x7F = some .wireStart ∧ decodeTableWord 16 0x5E7D = none ∧ decodeTableWord 8 0x7D = none := by
  decide

/-- S-8: `frame([0x01, 0x7E, 0x02])`. -/
theorem test_frame : frameOf [0x01, 0x7E, 0x02] = [0x7F, 0x01, 0x7D, 0x5E, 0x02, 0x7E] := by decide

/-- R54: the class of each special byte and escape code, and of the mask. -/
theorem test_classify :
    classify 0x7F = .start ∧ classify 0x7E = .endd ∧ classify 0x7D = .esc ∧ classify 0x5D = .escCode ∧
    classify 0x5E = .escCode ∧ classify 0x5F = .escCode ∧ classify 0x20 = .data := by decide

/-- 00_scope.md section 5: LW for the capacities 0, 1, 2, 3, 4, 255 and 256. -/
theorem test_len_width :
    [0, 1, 2, 3, 4, 255, 256].map lenWidth = [1, 1, 2, 2, 3, 8, 9] := by decide

/-- R58 to R60: the codes on the ports. -/
theorem test_port_codes :
    EncRsp.ok.bits = 1 ∧ EncRsp.fail.bits = 0 ∧ DecRsp.pending.status = 0b00 ∧ (DecRsp.complete 3).status = 0b01 ∧
    DecRsp.error.status = 0b10 ∧ ((DecRsp.complete 3).lenBits 4).toNat = 3 ∧
    [DecState.awaitingStart, .inMessage, .inEscape, .error].map DecState.bits = [0b00, 0b01, 0b10, 0b11] := by decide

/-- R38: the read port below and at the capacity. -/
theorem test_read_port :
    (encAt 3 [0x7F, 0x41]).enc.readPort 1 = .byte 0x41 ∧
    (encAt 3 [0x7F, 0x41]).enc.readPort 3 = .refused (.readIndexOutOfRange 3) := by decide

/-! One step of each instruction. -/

/-- V-E1: len 5 of 8. -/
theorem test_enc_reset : encSeen (.encReset 0) (encAt 8 [1, 2, 3, 4, 5]) =
    some ([.enc .ok], 0, [some 1, some 2, some 3, some 4, some 5, none, none, none]) := by decide
/-- V-E3: a restart in the middle of a frame. -/
theorem test_enc_start_restarts : encSeen (.encStart 0) (encAt 8 [1, 2, 3, 4, 5, 6]) =
    some ([.enc .ok], 1, [some 0x7F, some 2, some 3, some 4, some 5, some 6, none, none]) := by decide
/-- V-E5: capacity 0. -/
theorem test_enc_start_no_capacity : encSeen (.encStart 0) (encAt 0 []) = some ([.enc .fail], 0, []) := by decide
/-- V-E10: exactly 2 remaining. -/
theorem test_enc_write_7D_fits : encSeen .encWriteSpecial7D (encAt 8 [1, 2, 3, 4, 5, 6]) =
    some ([.enc .ok], 8, [some 1, some 2, some 3, some 4, some 5, some 6, some 0x7D, some 0x5D]) := by decide
/-- V-E14: full. -/
theorem test_enc_write_7D_full : encSeen .encWriteSpecial7D (encAt 4 [1, 2, 3, 4]) =
    some ([.enc .fail], 4, [some 1, some 2, some 3, some 4]) := by decide
/-- V-E9. -/
theorem test_enc_write_7E_fits : encSeen .encWriteSpecial7E (encAt 8 [1, 2, 3, 4]) =
    some ([.enc .ok], 6, [some 1, some 2, some 3, some 4, some 0x7D, some 0x5E, none, none]) := by decide
/-- V-E11: 1 remaining, no lone ESCAPE is stored. -/
theorem test_enc_write_7E_one_left : encSeen .encWriteSpecial7E (encAt 4 [1, 2, 3]) =
    some ([.enc .fail], 3, [some 1, some 2, some 3, none]) := by decide
/-- V-E8. -/
theorem test_enc_write_7F : encSeen .encWriteSpecial7F (encAt 8 [1, 2]) =
    some ([.enc .ok], 4, [some 1, some 2, some 0x7D, some 0x5F, none, none, none, none]) := by decide
/-- V-E12: the last free byte. -/
theorem test_enc_write_ordinary_last : encSeen (.encWriteOrdinary 0x43) (encAt 4 [1, 2, 3]) =
    some ([.enc .ok], 4, [some 1, some 2, some 3, some 0x43]) := by decide
/-- V-E13: full. -/
theorem test_enc_write_ordinary_full : encSeen (.encWriteOrdinary 0x44) (encAt 4 [1, 2, 3, 4]) =
    some ([.enc .fail], 4, [some 1, some 2, some 3, some 4]) := by decide
/-- V-E20, its second command. -/
theorem test_enc_write_special : encSeen (.encWrite 0x7E) (encAt 3 [0x7F]) =
    some ([.enc .ok], 3, [some 0x7F, some 0x7D, some 0x5E]) := by decide
/-- V-E21: an escape code is ordinary to the encoder. -/
theorem test_enc_write_escape_code : encSeen (.encWrite 0x5D) (encAt 2 [0x7F]) =
    some ([.enc .ok], 2, [some 0x7F, some 0x5D]) := by decide
/-- V-E24: the empty frame. -/
theorem test_enc_end : encSeen (.encEnd 0) (encAt 2 [0x7F]) = some ([.enc .ok], 2, [some 0x7F, some 0x7E]) := by decide
/-- V-E25: capacity 0. -/
theorem test_enc_end_no_capacity : encSeen (.encEnd 0) (encAt 0 []) = some ([.enc .fail], 0, []) := by decide

/-- V-D31. -/
theorem test_dec_reset : decSeen (.decReset 0) (decAt 4 .error [1, 2, 3, 4]) =
    some ([.dec .pending], .awaitingStart, 0, [some 1, some 2, some 3, some 4]) := by decide
/-- V-D4: START in InEscape is no error. -/
theorem test_rx_start_in_escape : decSeen .decRxStart (decAt 4 .inEscape [1, 2]) =
    some ([.dec .pending], .inMessage, 0, [some 1, some 2, none, none]) := by decide
/-- V-D5: START leaves Error. -/
theorem test_rx_start_in_error : decSeen .decRxStart (decAt 4 .error [1, 2, 3, 4]) =
    some ([.dec .pending], .inMessage, 0, [some 1, some 2, some 3, some 4]) := by decide
/-- V-D13: a full buffer completes. -/
theorem test_rx_end_completes : decSeen .decRxEnd (decAt 4 .inMessage [1, 2, 3, 4]) =
    some ([.dec (.complete 4)], .awaitingStart, 4, [some 1, some 2, some 3, some 4]) := by decide
/-- V-D25: END after ESCAPE is an error. -/
theorem test_rx_end_in_escape : decSeen .decRxEnd (decAt 4 .inEscape [1]) =
    some ([.dec .error], .error, 1, [some 1, none, none, none]) := by decide
/-- V-D10: no capacity test on ESCAPE. -/
theorem test_rx_esc_full : decSeen .decRxEsc (decAt 4 .inMessage [1, 2, 3, 4]) =
    some ([.dec .pending], .inEscape, 4, [some 1, some 2, some 3, some 4]) := by decide
/-- V-D26: ESCAPE ESCAPE is an error. -/
theorem test_rx_esc_in_escape : decSeen .decRxEsc (decAt 4 .inEscape [1]) =
    some ([.dec .error], .error, 1, [some 1, none, none, none]) := by decide
/-- V-D23. -/
theorem test_rx_5D_in_escape : decSeen .decRxEsccode5D (decAt 4 .inEscape [1]) =
    some ([.dec .pending], .inMessage, 2, [some 1, some 0x7D, none, none]) := by decide
/-- V-D20: an escape code as plain payload. -/
theorem test_rx_5E_in_message : decSeen .decRxEsccode5E (decAt 4 .inMessage []) =
    some ([.dec .pending], .inMessage, 1, [some 0x5E, none, none, none]) := by decide
/-- V-D28: special, but full. -/
theorem test_rx_5E_in_escape_full : decSeen .decRxEsccode5E (decAt 4 .inEscape [1, 2, 3, 4]) =
    some ([.dec .error], .error, 4, [some 1, some 2, some 3, some 4]) := by decide
/-- V-D21. -/
theorem test_rx_5F_in_escape : decSeen .decRxEsccode5F (decAt 4 .inEscape [1]) =
    some ([.dec .pending], .inMessage, 2, [some 1, some 0x7F, none, none]) := by decide
/-- V-D17. -/
theorem test_rx_data_stored : decSeen (.decRxData 0x41) (decAt 4 .inMessage [1]) =
    some ([.dec .pending], .inMessage, 2, [some 1, some 0x41, none, none]) := by decide
/-- V-D18: overflow. -/
theorem test_rx_data_full : decSeen (.decRxData 0x41) (decAt 4 .inMessage [1, 2, 3, 4]) =
    some ([.dec .error], .error, 4, [some 1, some 2, some 3, some 4]) := by decide
/-- V-D14: discarded in Error, answered pending. -/
theorem test_rx_in_error : decSeen (.decRx 0x42) (decAt 4 .error [1]) =
    some ([.dec .pending], .error, 1, [some 1, none, none, none]) := by decide
/-- V-D27: u = 0x00. -/
theorem test_rx_bad_escape : decSeen (.decRx 0x20) (decAt 4 .inEscape [1]) =
    some ([.dec .error], .error, 1, [some 1, none, none, none]) := by decide

/-- R92 on the byte of WIRE.START. -/
theorem test_wire_start : decSeen .wireStart (decAt 4 .error [1]) =
    some ([.dec .pending], .inMessage, 0, [some 1, none, none, none]) := by decide
/-- R95 on the byte of WIRE.END: V-D12, the empty message. -/
theorem test_wire_end : decSeen .wireEnd (decAt 4 .inMessage []) =
    some ([.dec (.complete 0)], .awaitingStart, 0, [none, none, none, none]) := by decide
/-- R94 then R97 on the bytes of WIRE.E_7D (Q-F, rows 7 and 8). -/
theorem test_wire_7D : decSeen .wireE7D (decAt 4 .inMessage [0x7F, 0x7E]) =
    some ([.dec .pending, .dec .pending], .inMessage, 3, [some 0x7F, some 0x7E, some 0x7D, none]) := by decide
/-- Q-F, rows 5 and 6. -/
theorem test_wire_7E : decSeen .wireE7E (decAt 4 .inMessage [0x7F]) =
    some ([.dec .pending, .dec .pending], .inMessage, 2, [some 0x7F, some 0x7E, none, none]) := by decide
/-- Q-I: the overflow is found at the escape code, not at ESCAPE. -/
theorem test_wire_7E_full : decSeen .wireE7E (decAt 1 .inMessage [0x41]) =
    some ([.dec .pending, .dec .error], .error, 1, [some 0x41]) := by decide
/-- Q-F, rows 3 and 4. -/
theorem test_wire_7F : decSeen .wireE7F (decAt 4 .inMessage []) =
    some ([.dec .pending, .dec .pending], .inMessage, 1, [some 0x7F, none, none, none]) := by decide
/-- R93 on an ordinary byte. -/
theorem test_wire_ordinary : decSeen (.wireEOrdinary 0x41) (decAt 4 .awaitingStart []) =
    some ([.dec .pending], .awaitingStart, 0, [none, none, none, none]) := by decide

/-! The step. -/

/-- V-E26: the word 0x1FF is START. -/
theorem test_step_ignores_data : ((nextOf (step ((encAt 8 [1, 2, 3]).present (.enc ⟨false, some 0x1FF⟩)))).map
    fun t => (t.rsp, t.enc.len, t.enc.buf.read 0, t.inputs)) = some ([.enc .ok], 1, some 0x7F, []) := by decide
/-- V-D33: the word 0x0AB is RESET. -/
theorem test_step_dec_reset_data : ((nextOf (step ((decAt 4 .inEscape [1, 2]).present (.dec ⟨false, some 0x0AB⟩)))).map
    fun t => (t.rsp, t.dec.st, t.dec.len)) = some ([.dec .pending], .awaitingStart, 0) := by decide
/-- R150 and D19: reset drops the command presented with it, and gives no response. -/
theorem test_step_reset_wins : ((nextOf (step ((decAt 4 .error [1, 2]).present (.dec ⟨true, some 0x17F⟩)))).map
    fun t => (t.rsp, t.dec.st, t.dec.len)) = some ([], .awaitingStart, 0) := by decide
/-- R56 (log entry 9): ESCAPE followed by no escape code is fed by itself, and its successor stays on the line. -/
theorem test_step_bad_pair : ((nextOf (step ((decAt 4 .inMessage []).present (.line [0x7D, 0x41])))).map
    fun t => (t.rsp, t.dec.st, t.inputs)) = some ([.dec .pending], .inEscape, [.line [0x41]]) := by decide
/-- A unit is taken and the rest of the line stays. -/
theorem test_step_line : ((nextOf (step ((decAt 4 .inMessage []).present (.line [0x7D, 0x5E, 0x7E])))).map
    fun t => (t.rsp, t.dec.buf.read 0, t.inputs)) = some ([.dec .pending, .dec .pending], some 0x7E, [.line [0x7E]]) := by
  decide
/-- A table word presented to the machine after reset is the next instruction. -/
theorem test_with_fetch_word : ((nextOf (step (State.reset.withFetchWord 16 0x17F))).map
    fun t => (t.rsp, t.dec.st, t.inputs)) = some ([.dec .pending], .inMessage, []) := by decide
/-- S-2 for END, by `enc.frame` on a capacity of exactly 4. -/
theorem test_enc_frame : ((encAt 4 []).enc.frame [0x7E]).2 = .ok ∧
    ((encAt 4 []).enc.frame [0x7E]).1.buf = [(0, 0x7F), (1, 0x7D), (2, 0x5E), (3, 0x7E)] := by decide
/-- S-4 by `dec.feed`. -/
theorem test_dec_feed : ((decAt 2 .awaitingStart []).dec.feed [0x7F, 0x41, 0x42, 0x43]).2 =
    [.pending, .pending, .pending, .error] := by decide

/-! Witnesses: hypotheses of the statements, met, each clause at a boundary. -/

/-- Every constructed state of these tests that is used below meets the invariant. -/
theorem encAt_inv : (encAt 4 [0x7F, 0x41]).Inv :=
  ⟨⟨by decide, by unfold Memory.below; decide, by unfold Memory.written; decide, by decide⟩,
   ⟨by decide, by unfold Memory.below; decide, by unfold Memory.written; decide, by decide⟩⟩
theorem decAt_inv : (decAt 2 .inMessage [0x41, 0x42]).Inv :=
  ⟨⟨by decide, by unfold Memory.below; decide, by unfold Memory.written; decide, by decide⟩,
   ⟨by decide, by unfold Memory.below; decide, by unfold Memory.written; decide, by decide⟩⟩

theorem witness_DecodeOfEncode : (Instr.encWriteOrdinary 0x7C).WellFormed = true ∧
    (∀ b, Instr.encWriteOrdinary 0x7C ≠ .encWrite b) ∧ (∀ b, Instr.encWriteOrdinary 0x7C ≠ .decRx b) := by
  refine ⟨by decide, ?_, ?_⟩ <;> intro b h <;> cases h
theorem witness_DecodeOfEncode_group : (Instr.encWrite 0x7F).WellFormed = true ∧ (Instr.decRx 0xFF).WellFormed = true := by
  decide
theorem witness_SameWords : encode (.encWrite 0x7E) = encode .encWriteSpecial7E ∧
    encode (.decRx 0x41) = encode (.decRxData 0x41) := by decide
theorem witness_IgnoredData_enc : ((0x000 : EncWord).extractLsb' 8 2 = (0x0FF : EncWord).extractLsb' 8 2 ∧
    (0x000 : EncWord).extractLsb' 8 2 ≠ (0b10 : BitVec 2)) ∧
    ((0x300 : EncWord).extractLsb' 8 2 = (0x3FF : EncWord).extractLsb' 8 2 ∧
    (0x300 : EncWord).extractLsb' 8 2 ≠ (0b10 : BitVec 2)) := by decide
theorem witness_IgnoredData_dec : (0x000 : DecWord).extractLsb' 8 1 = (0b0 : BitVec 1) ∧
    (0x0FF : DecWord).extractLsb' 8 1 = (0b0 : BitVec 1) := by decide
theorem witness_OutputPorts_full : (encAt 2 [1, 2]).enc.len ≤ (encAt 2 [1, 2]).enc.cap ∧
    (encAt 2 [1, 2]).enc.lenPort.toNat = 2 ∧ (decAt 0 .inMessage []).dec.len ≤ (decAt 0 .inMessage []).dec.cap := by decide
theorem witness_EscapeThen : (decAt 4 .inMessage []).dec.st = .inMessage ∧
    (0x7E : Byte) ∉ ([0x5D, 0x5E, 0x5F] : List Byte) ∧ (0x7F : Byte) ∉ ([0x5D, 0x5E, 0x5F] : List Byte) ∧
    (0x60 : Byte) ∉ ([0x5D, 0x5E, 0x5F] : List Byte) := by decide
theorem witness_EveryStepKeepsTheInvariant :
    ∃ t, (encAt 4 [0x7F, 0x41]).Inv ∧ step (encAt 4 [0x7F, 0x41]) = .next t := ⟨_, encAt_inv, rfl⟩
theorem witness_EveryStepKeepsTheInvariant_full :
    ∃ t, (decAt 2 .inMessage [0x41, 0x42]).Inv ∧ step (decAt 2 .inMessage [0x41, 0x42]) = .next t := ⟨_, decAt_inv, rfl⟩
theorem witness_LengthsStay : ∃ t, core.run 2 (State.reset.withInputs [.enc ⟨false, some 0x100⟩, .line [0x7F]]) = .next t :=
  ⟨_, rfl⟩
theorem witness_NoPartialMutation_fail : ∃ t, Instr.encCmd .encWriteSpecial7E = some (.write 0x7E) ∧
    (encAt 4 [1, 2, 3]).enc.len ≤ (encAt 4 [1, 2, 3]).enc.cap ∧
    exec .encWriteSpecial7E (encAt 4 [1, 2, 3]) = .next t ∧ t.rsp = [.enc .fail] := ⟨_, rfl, by decide, rfl, by decide⟩
theorem witness_NoPartialMutation_ok : ∃ t, Instr.encCmd .encWriteSpecial7E = some (.write 0x7E) ∧
    (encAt 4 [1, 2]).enc.len ≤ (encAt 4 [1, 2]).enc.cap ∧
    exec .encWriteSpecial7E (encAt 4 [1, 2]) = .next t ∧ t.rsp = [.enc .ok] ∧ EncCmd.write 0x7E ≠ .reset ∧
    1 < (EncCmd.write 0x7E).storeBytes.length :=
  ⟨_, rfl, by decide, rfl, by decide, by decide, by decide⟩
theorem witness_NoPartialMutation_error : ∃ t, Instr.rxByte (.decRxData 0x41) = some 0x41 ∧
    exec (.decRxData 0x41) (decAt 2 .inMessage [1, 2]) = .next t ∧ t.rsp = [.dec .error] := ⟨_, rfl, rfl, by decide⟩
theorem witness_StepsMoveLengths : ∃ t, step ((encAt 4 [1, 2]).present (.enc ⟨false, some 0x27D⟩)) = .next t ∧
    t.enc.len = (encAt 4 [1, 2]).enc.len + 2 := ⟨_, rfl, by decide⟩
theorem witness_NoStepDepends : ∃ t t', (encAt 4 [1, 2]).sameButBuffers (encAt 4 [3, 4]) ∧ encAt 4 [1, 2] ≠ encAt 4 [3, 4] ∧
    step (encAt 4 [1, 2]) = .next t ∧ step (encAt 4 [3, 4]) = .next t' :=
  ⟨_, _, ⟨rfl, rfl, rfl, rfl, rfl, rfl, rfl⟩, by decide, rfl, rfl⟩
theorem witness_ReadPorts : (encAt 2 [1]).enc.cap ≤ 2 ∧ 1 < (encAt 2 [1]).enc.cap ∧
    (encAt 2 [1]).enc.buf.read 0 = some 1 ∧ (encAt 2 [1]).enc.buf.read 1 = none ∧
    (decAt 0 .inMessage []).dec.cap ≤ 0 ∧ 3 < (decAt 4 .inMessage [1]).dec.cap := by decide
theorem witness_EncRowsFrame : ∃ t, Instr.encCmd .encWriteSpecial7E = some (.write 0x7E) ∧
    exec .encWriteSpecial7E (encAt 8 [1, 2]) = .next t ∧ 1 < EncCmd.storeIndex (encAt 8 [1, 2]).enc (.write 0x7E) ∧
    EncCmd.storeIndex (encAt 8 [1, 2]).enc (.write 0x7E) + EncCmd.storeWidth (.write 0x7E) ≤ 4 :=
  ⟨_, rfl, rfl, by decide, by decide⟩
theorem witness_DecAndWireRowsFrame : ∃ t, Instr.encCmd .wireEnd = none ∧
    exec .wireEnd (decAt 4 .inMessage [1]) = .next t ∧ t.dec.len ≠ (decAt 4 .inMessage [1]).dec.len + 1 :=
  ⟨_, rfl, rfl, by decide⟩
theorem witness_EncStart : 1 ≤ (encAt 1 []).enc.cap ∧ (encAt 0 []).enc.cap = 0 := by decide
theorem witness_EncWrite_special : isSpecial 0x7D = true ∧
    ([0x7D, 0x20 ^^^ (0x7D : Byte)] : List Byte).length ≤ (encAt 4 [1, 2]).enc.cap - (encAt 4 [1, 2]).enc.len ∧
    (encAt 4 [1, 2, 3]).enc.cap - (encAt 4 [1, 2, 3]).enc.len < ([0x7D, 0x20 ^^^ (0x7D : Byte)] : List Byte).length := by
  decide
theorem witness_EncWrite_ordinary : isSpecial 0x7C = false ∧
    ([0x7C] : List Byte).length ≤ (encAt 4 [1, 2, 3]).enc.cap - (encAt 4 [1, 2, 3]).enc.len ∧
    (encAt 4 [1, 2, 3, 4]).enc.cap - (encAt 4 [1, 2, 3, 4]).enc.len < ([0x7C] : List Byte).length := by decide
theorem witness_EncWriteOrdinary : (0x80 : Byte) ≠ 0x7D ∧ (0x80 : Byte) ≠ 0x7E ∧ (0x80 : Byte) ≠ 0x7F := by decide
theorem witness_EncEnd : ([0x7E] : List Byte).length ≤ (encAt 1 []).enc.cap - (encAt 1 []).enc.len ∧
    (encAt 1 [1]).enc.cap - (encAt 1 [1]).enc.len < ([0x7E] : List Byte).length := by decide
/-- P1: the frame of [0x41] in 3 bytes, before its END. -/
theorem witness_EncEnd_frame : ∃ t, (encAt 3 [0x7F, 0x41]).enc.holds (0x7F :: ([0x41] : List Byte).flatMap escapeSeq) ∧
    (encAt 3 [0x7F, 0x41]).enc.len < (encAt 3 [0x7F, 0x41]).enc.cap ∧ exec (.encEnd 0) (encAt 3 [0x7F, 0x41]) = .next t :=
  ⟨_, ⟨by decide, by decide⟩, by decide, rfl⟩
theorem witness_EncFails : Instr.encCmd .encWriteSpecial7F = some (.write 0x7F) ∧
    (encAt 4 [1, 2, 3]).enc.len ≤ (encAt 4 [1, 2, 3]).enc.cap ∧
    (encAt 4 [1, 2, 3]).enc.cause (.write 0x7F) = some .encNoSpace ∧ (encAt 4 [1, 2]).enc.cause (.write 0x7F) = none ∧
    (encAt 4 [1, 2, 3]).enc.cause (.write 0x43) = none ∧ (encAt 0 []).enc.cause .start = some .encNoSpace ∧
    (encAt 0 []).enc.cause .reset = none ∧ (encAt 4 [1, 2, 3, 4]).enc.cause .finish = some .encNoSpace := by decide
/-- Q-B, P1 and V-E20: the frame of [0x41] fits 3 bytes exactly; that of [0x7E] does not fit 3, and END is the first to fail. -/
theorem witness_ContractSequence :
    2 + ([0x41] : List Byte).length + specialCount [0x41] ≤ (encAt 3 []).enc.cap ∧
    2 < ([0x7E] : List Byte).length + 2 ∧ ((frameSizes [0x7E]).take 2).sum ≤ (encAt 3 []).enc.cap ∧
    (encAt 3 []).enc.cap < ((frameSizes [0x7E]).take 3).sum := by decide
theorem witness_CapacityZeroAndOne : Instr.encCmd (.encEnd 0) = some .finish ∧ EncCmd.finish ≠ .reset ∧
    (encAt 0 []).enc.cap = 0 ∧ (encAt 0 []).enc.len = 0 ∧ (encAt 1 [0x7F]).enc.cap = 1 ∧ (encAt 1 [0x7F]).enc.len = 1 ∧
    EncCmd.finish ≠ .start ∧ Instr.encCmd (.encStart 0) = some .start ∧ EncCmd.start ≠ .reset := by decide
theorem witness_StartByte : Instr.rxByte .decRxStart = some 0x7F ∧ Instr.rxByte (.decRx 0x7F) = some 0x7F := by decide
theorem witness_OtherBytes : Instr.rxByte .decRxEnd = some 0x7E ∧ (0x7E : Byte) ≠ 0x7F ∧
    (decAt 4 .awaitingStart []).dec.st = .awaitingStart ∧ (decAt 4 .error [1]).dec.st = .error := by decide
theorem witness_EscapeByte : Instr.rxByte .decRxEsc = some 0x7D ∧ (decAt 4 .inMessage [1, 2, 3, 4]).dec.st = .inMessage := by
  decide
theorem witness_EndByte : Instr.rxByte .decRxEnd = some 0x7E ∧ (decAt 0 .inMessage []).dec.st = .inMessage := by decide
theorem witness_PayloadByte : Instr.rxByte .decRxEsccode5E = some 0x5E ∧ (0x5E : Byte) ≠ 0x7F ∧ (0x5E : Byte) ≠ 0x7D ∧
    (0x5E : Byte) ≠ 0x7E ∧ (decAt 4 .inMessage [1, 2, 3]).dec.st = .inMessage ∧
    (decAt 4 .inMessage [1, 2, 3]).dec.len < (decAt 4 .inMessage [1, 2, 3]).dec.cap ∧
    (decAt 4 .inMessage [1, 2, 3, 4]).dec.cap ≤ (decAt 4 .inMessage [1, 2, 3, 4]).dec.len := by decide
theorem witness_EscapedByte_stored : Instr.rxByte .decRxEsccode5F = some 0x5F ∧ (0x5F : Byte) ≠ 0x7F ∧
    (decAt 4 .inEscape [1, 2, 3]).dec.st = .inEscape ∧ isSpecial (0x5F ^^^ 0x20) = true ∧
    (decAt 4 .inEscape [1, 2, 3]).dec.len < (decAt 4 .inEscape [1, 2, 3]).dec.cap := by decide
theorem witness_EscapedByte_bad : Instr.rxByte .decRxEnd = some 0x7E ∧ (0x7E : Byte) ≠ 0x7F ∧
    (decAt 4 .inEscape [1]).dec.st = .inEscape ∧ isSpecial (0x7E ^^^ 0x20) = false := by decide
theorem witness_EscapedByte_full : Instr.rxByte .decRxEsccode5E = some 0x5E ∧ (0x5E : Byte) ≠ 0x7F ∧
    (decAt 4 .inEscape [1, 2, 3, 4]).dec.st = .inEscape ∧ isSpecial (0x5E ^^^ 0x20) = true ∧
    (decAt 4 .inEscape [1, 2, 3, 4]).dec.cap ≤ (decAt 4 .inEscape [1, 2, 3, 4]).dec.len := by decide
theorem witness_EachReceivedByte : Instr.rxByte (.decRx 0x7E) = some 0x7E ∧
    (decAt 0 .inMessage []).dec.st = .inMessage ∧ (decAt 4 .inEscape [1]).dec.cause 0x7E ≠ none := by decide
theorem witness_BytesOtherThanStart : (0x7F : Byte) ∉ ([0x42, 0x7E, 0x7D] : List Byte) ∧
    (decAt 4 .awaitingStart [0x41]).dec.st = .awaitingStart ∧ (decAt 4 .error [0x41]).dec.st = .error := by decide
/-- Q-J and S-4: two bytes fit DEC_CAP = 2, three do not. -/
theorem witness_FrameIsAccepted : ([0x41, 0x42] : List Byte).length ≤ (decAt 2 .inEscape [1]).dec.cap ∧
    (decAt 2 .inEscape [1]).dec.cap < ([0x41, 0x42, 0x43] : List Byte).length := by decide
/-- P5's payload in the buffers that it just fits. -/
theorem witness_RoundTrip : 2 + ([0x01, 0x7E, 0x02] : List Byte).length + specialCount [0x01, 0x7E, 0x02] ≤ (encAt 6 []).enc.cap ∧
    ([0x7E, 0x02] : List Byte).length ≤ (encAt 6 []).dec.cap ∧ ([0x01, 0x7E, 0x02] : List Byte).length ≤ (encAt 6 []).dec.cap := by
  decide
theorem witness_Resynchronisation : 1 ≤ (decAt 1 .inEscape []).dec.cap := by decide
theorem witness_WireUnits : (decAt 4 .inMessage [1, 2, 3]).dec.st = .inMessage ∧
    (decAt 4 .inMessage [1, 2, 3]).dec.len < (decAt 4 .inMessage [1, 2, 3]).dec.cap ∧ isSpecial 0x80 = false := by decide
theorem witness_WireUnitIsItsBytes : Instr.wireBytes .wireE7D = some [0x7D, 0x5D] := by decide
theorem witness_DecoderErrors : Instr.rxByte (.decRx 0x41) = some 0x41 ∧
    (decAt 4 .inEscape [1, 2, 3, 4]).dec.len ≤ (decAt 4 .inEscape [1, 2, 3, 4]).dec.cap ∧
    (decAt 4 .inEscape [1, 2, 3, 4]).dec.cause 0x41 = some .decBadEscape ∧
    (decAt 4 .inEscape [1, 2, 3, 4]).dec.cause 0x5E = some .decOverflow ∧
    (decAt 4 .inEscape [1, 2, 3]).dec.cause 0x5E = none ∧ (decAt 4 .inMessage [1, 2, 3, 4]).dec.cause 0x41 = some .decOverflow ∧
    (decAt 4 .inMessage [1, 2, 3, 4]).dec.cause 0x7D = none ∧ (0x7F : Byte) ∉ ([0x7E, 0x7D] : List Byte) := by decide
theorem witness_ErrorIsLeft_hardReset : ∃ t, ((decAt 4 .error [1]).present (.dec ⟨true, none⟩)).dec.st = .error ∧
    step ((decAt 4 .error [1]).present (.dec ⟨true, none⟩)) = .next t ∧ t.dec.st ≠ .error := ⟨_, rfl, rfl, by decide⟩
theorem witness_ErrorIsLeft_reset : ∃ t, ((decAt 4 .error [1]).present (.dec ⟨false, some 0x000⟩)).dec.st = .error ∧
    step ((decAt 4 .error [1]).present (.dec ⟨false, some 0x000⟩)) = .next t ∧ t.dec.st ≠ .error := ⟨_, rfl, rfl, by decide⟩
theorem witness_ErrorIsLeft_start : ∃ t, ((decAt 4 .error [1]).present (.line [0x7F])).dec.st = .error ∧
    step ((decAt 4 .error [1]).present (.line [0x7F])) = .next t ∧ t.dec.st ≠ .error := ⟨_, rfl, rfl, by decide⟩
theorem witness_BlocksDoNotInterfere : Instr.encCmd (.encStart 0) ≠ none ∧ Instr.encCmd .wireE7D = none := by decide
theorem witness_IdleChangesNothing : (encAt 4 [1]).inputs = [] := by decide
theorem witness_StepRuns_whole :
    ((encAt 4 []).present (.enc ⟨false, some 0x100⟩)).inputs = [.enc ⟨false, some 0x100⟩] ∧
    decode (.enc ⟨false, some 0x100⟩) = .instr (.encStart 0) [] := by decide
theorem witness_StepRuns_line :
    ((encAt 4 []).present (.line [0x7D, 0x5E, 0x7E])).inputs = [.line [0x7D, 0x5E, 0x7E]] ∧
    decodeLine [0x7D, 0x5E, 0x7E] = .instr .wireE7E [0x7E] ∧ ([0x7E] : List Byte) ≠ [] := by decide
theorem witness_LineIsFed : ((decAt 4 .inMessage []).present (.line [0x7D, 0x41, 0x7D])).inputs = [.line [0x7D, 0x41, 0x7D]] ∧
    ((decAt 4 .inMessage []).present (.line [])).inputs = [.line []] := by decide
theorem witness_PresentedTableWord : decodeTableWord 16 0x7D5F = some .wireE7F ∧ decodeTableWord 10 0x3FF = some (.encEnd 0xFF) := by
  decide

end Sys2Proof.Tests
end

section
/-! PROOFS. The step as a whole (00_scope.md): it always completes, and it runs the instruction decoded from the oldest
presentation. -/

namespace Sys2Proof

/-! What the decoder reads and what the step fetches agree. -/

/-- A whole unit is a unit after which nothing stays on the line. -/
theorem wholeUnit_eq_instr_iff {d : Decoded} {i : Instr} {left : List Byte} :
    wholeUnit d = .instr i left ↔ d = .instr i [] ∧ left = [] := by
  cases d with
  | rejected e => simp [wholeUnit]
  | instr j bytes => cases bytes <;> simp [wholeUnit, eq_comm]

@[simp] theorem keepLine_nil (rest : List Input) : keepLine [] rest = rest := rfl

theorem keepLine_of_ne_nil {bytes : List Byte} (h : bytes ≠ []) (rest : List Input) :
    keepLine bytes rest = .line bytes :: rest := by
  simp [keepLine, h]

/-- Of a line whose first unit is `i`, the step takes that unit and leaves the bytes after it. -/
theorem fetchLine_of_decodeLine {bytes left : List Byte} {i : Instr} (h : decodeLine bytes = .instr i left)
    (rest : List Input) : fetchLine bytes rest = (.run i, keepLine left rest) := by
  cases bytes with
  | nil => cases h
  | cons b more => simp only [fetchLine, h]

/-- A presentation that decodes to `i` is taken away whole, and asks for `i`. -/
theorem fetch_of_decode {input : Input} {i : Instr} {left : List Byte} (h : decode input = .instr i left)
    (rest : List Input) : fetch (input :: rest) = (.run i, rest) := by
  match input with
  | .enc ⟨true, _⟩ | .enc ⟨false, none⟩ | .dec ⟨true, _⟩ | .dec ⟨false, none⟩ => cases h
  | .enc ⟨false, some w⟩ | .dec ⟨false, some w⟩ => cases h; rfl
  | .line bytes =>
    obtain ⟨hunit, -⟩ := wholeUnit_eq_instr_iff.1 h
    exact fetchLine_of_decodeLine hunit rest

end Sys2Proof

namespace Sys2Proof.Machine

/-- A step that fetches an instruction runs it on the state with what it fetched taken away. -/
theorem step_of_fetch_run {s : State} {i : Instr} {rest : List Input} (h : fetch s.inputs = (.run i, rest)) :
    step s = exec i (s.withInputs rest) := by
  rw [step, h]; rfl

/-! Every meaning answers a next state (R6). -/

theorem exec_completes (i : Instr) (s : State) : ∃ t, exec i s = .next t := by
  obtain ⟨_, -, h⟩ | ⟨_, -, h⟩ | ⟨_, -, h⟩ | ⟨_, -, h⟩ := exec_cases i s <;> exact ⟨_, h⟩

theorem perform_completes (action : Action) (s : State) : ∃ t, perform action s = .next t := by
  cases action with
  | idle => exact ⟨s.idle, rfl⟩
  | hardReset block => exact ⟨s.hardReset block, rfl⟩
  | run i => exact exec_completes i s

/-- Settles O15: a step performs an action, and every action completes. -/
theorem everyStepCompletes : Obligations.EveryStepCompletes :=
  fun s => ⟨perform_completes _ _, fun i => exec_completes i s⟩

/-- Settles O50: what is fetched is what is decoded, for a whole presentation and for the first unit of a line. -/
theorem stepRunsTheDecodedInstruction : Obligations.StepRunsTheDecodedInstruction := by
  refine fun s i rest => ⟨fun input hs hd => ?_, fun bytes left hs hd hleft => ?_⟩
  · exact step_of_fetch_run (hs ▸ fetch_of_decode hd rest)
  · have hfetch : fetch s.inputs = (.run i, .line left :: rest) := by
      rw [hs, ← keepLine_of_ne_nil hleft rest]
      exact fetchLine_of_decodeLine hd rest
    exact step_of_fetch_run hfetch

end Sys2Proof.Machine
end

section
/-! PROOFS. The state (10_state.md): the invariant and the lengths, what failing commands keep, the frames of the rows, and what
reset leaves. -/

namespace Sys2Proof.Machine

/-! What a command of ENC does, in terms of where it stores and what. -/

theorem EncCmd.storeBytes_length (c : EncCmd) : c.storeBytes.length = c.storeWidth := by
  cases c with
  | write b => exact escapeSeq_length b
  | reset | start | finish => rfl

/-- Everything a command of ENC can do: RESET clears the length; another command stores all of its bytes from its store
index on, or stores nothing and leaves the length at that index. -/
theorem Enc.cmd_cases (e : Enc) (c : EncCmd) :
    (c = .reset ∧ e.cmd c = (e.clear, .ok)) ∨
    (e.cmd c = ({ e with buf := e.buf.writeAll (c.storeIndex e) c.storeBytes,
                         len := c.storeIndex e + c.storeBytes.length }, .ok)) ∨
    (e.cap - c.storeIndex e < c.storeBytes.length ∧ e.cmd c = ({ e with len := c.storeIndex e }, .fail)) := by
  rw [Enc.cmd_eq]
  cases c with
  | reset => exact .inl ⟨rfl, rfl⟩
  | start => exact .inr ((e.clear.append_cases _).imp_left And.right)
  | write b => exact .inr ((e.append_cases _).imp_left And.right)
  | finish => exact .inr ((e.append_cases _).imp_left And.right)

/-- ENC's capacity is a constant. -/
@[simp] theorem Enc.cmd_cap (e : Enc) (c : EncCmd) : (e.cmd c).1.cap = e.cap := by
  obtain ⟨-, h⟩ | h | ⟨-, h⟩ := e.cmd_cases c <;> simp [h]

/-- A command that lacks room would have stored at the cursor: a START lacks room with capacity 0 only, where the length is 0
by R15. -/
theorem EncCmd.storeIndex_of_noSpace {e : Enc} {c : EncCmd} (hlen : e.len ≤ e.cap)
    (h : e.cap - c.storeIndex e < c.storeBytes.length) : c.storeIndex e = e.len := by
  cases c with
  | start =>
    have hcap : e.cap - 0 < 1 := h
    show 0 = e.len
    omega
  | reset | write | finish => rfl

/-- A command that answers fail leaves the block as it was (R16, R121). -/
theorem Enc.cmd_of_fail {e : Enc} {c : EncCmd} (hlen : e.len ≤ e.cap) (hfail : (e.cmd c).2 = .fail) :
    (e.cmd c).1 = e := by
  obtain ⟨-, h⟩ | h | ⟨hspace, h⟩ := e.cmd_cases c <;> rw [h] at hfail ⊢
  · cases hfail
  · cases hfail
  · rw [EncCmd.storeIndex_of_noSpace hlen hspace]

/-- A command other than RESET that answers ok has stored all of its bytes, and its length is just past them (R16, R31). -/
theorem Enc.cmd_of_ok {e : Enc} {c : EncCmd} (hc : c ≠ .reset) (hok : (e.cmd c).2 = .ok) :
    (e.cmd c).1.len = c.storeIndex e + c.storeBytes.length ∧
    ∀ k < c.storeBytes.length, (e.cmd c).1.buf.read (c.storeIndex e + k) = c.storeBytes[k]? := by
  obtain ⟨hreset, -⟩ | h | ⟨-, h⟩ := e.cmd_cases c
  · exact absurd hreset hc
  · rw [h]
    exact ⟨rfl, fun k hk => Memory.read_writeAll_inside hk⟩
  · rw [h] at hok
    cases hok

/-- A command leaves every byte outside its own stored bytes as it was (R17). -/
theorem Enc.cmd_read_of_outside (e : Enc) (c : EncCmd) {k : Nat}
    (hk : k < c.storeIndex e ∨ c.storeIndex e + c.storeWidth ≤ k) : (e.cmd c).1.buf.read k = e.buf.read k := by
  rw [← EncCmd.storeBytes_length] at hk
  obtain ⟨-, h⟩ | h | ⟨-, h⟩ := e.cmd_cases c
  · rw [h, Enc.clear_buf]
  · rw [h, Memory.read_writeAll_of_outside hk]
  · rw [h]

/-! What received bytes do to DEC's buffer. -/

/-- From `d` to `d'`, DEC's buffer is as before, or one byte has been stored at the cursor and the length is up by one (R31). -/
def Dec.StoresAtMostOne (d d' : Dec) : Prop :=
  d'.buf = d.buf ∨ (d'.len = d.len + 1 ∧ ∃ b, d'.buf = d.buf.write d.len b)

theorem Dec.StoresAtMostOne.read_of_ne {d d' : Dec} (h : d.StoresAtMostOne d') {k : Nat} (hk : k ≠ d.len) :
    d'.buf.read k = d.buf.read k := by
  obtain hbuf | ⟨-, b, hbuf⟩ := h
  · rw [hbuf]
  · rw [hbuf, Memory.read_write_of_ne hk]

theorem Dec.StoresAtMostOne.buf_of_len_ne {d d' : Dec} (h : d.StoresAtMostOne d') (hlen : d'.len ≠ d.len + 1) :
    d'.buf = d.buf :=
  h.resolve_right fun hstored => hlen hstored.1

/-- One received byte stores at most one byte. -/
theorem Dec.rx_storesAtMostOne (d : Dec) (b : Byte) : d.StoresAtMostOne (d.rx b).1 := by
  obtain ⟨-, h⟩ | ⟨-, -, h⟩ | ⟨-, -, h⟩ | ⟨-, -, h⟩ | ⟨-, -, -, h⟩ | ⟨-, -, -, h⟩ | ⟨-, -, -, -, h⟩ | ⟨-, -, -, h⟩ :=
    d.rx_cases b <;> rw [h]
  · exact .inl rfl
  · exact .inl rfl
  · exact .inl rfl
  · exact .inl rfl
  · exact .inr ⟨rfl, b, rfl⟩
  · exact .inl rfl
  · exact .inr ⟨rfl, maskByte b, rfl⟩
  · exact .inl rfl

/-- ESCAPE is never a payload byte: receiving it changes at most the state register (R93, R94, R97, R98). -/
theorem Dec.rx_escape (d : Dec) : ∃ st, (d.rx Config.escapeByte).1 = { d with st := st } := by
  have hstart : (Config.escapeByte == Config.startByte) = false := by decide
  have hcode : isSpecial (maskByte Config.escapeByte) = false := by decide
  cases hst : d.st with
  | awaitingStart | error =>
    have hrx : d.rx Config.escapeByte = (d, .pending) := by simp [Dec.rx, hstart, hst, Dec.discard]
    exact ⟨d.st, by rw [hrx]⟩
  | inMessage => exact ⟨.inEscape, by simp [Dec.rx, hstart, hst, Dec.beginEscape]⟩
  | inEscape => exact ⟨.error, by simp [Dec.rx, hstart, hst, Dec.escapedByte, hcode, Dec.raise]⟩

/-- A unit of the wire format is one byte, or ESCAPE and one byte (R51). -/
theorem wireBytes_cases {i : Instr} {bytes : List Byte} (h : i.wireBytes = some bytes) :
    ∃ b, bytes = [b] ∨ bytes = [Config.escapeByte, b] := by
  cases i <;> simp only [Instr.wireBytes, Option.some.injEq, reduceCtorEq] at h <;> subst h
  case wireE7D | wireE7E | wireE7F => exact ⟨_, .inr rfl⟩
  all_goals exact ⟨_, .inl rfl⟩

/-- A unit of the wire format stores at most one byte: an ESCAPE before it stores nothing and moves no cursor. -/
theorem Dec.feed_wireBytes_storesAtMostOne (d : Dec) {i : Instr} {bytes : List Byte} (h : i.wireBytes = some bytes) :
    d.StoresAtMostOne (d.feed bytes).1 := by
  obtain ⟨b, rfl | rfl⟩ := wireBytes_cases h
  · exact d.rx_storesAtMostOne b
  · obtain ⟨st, hesc⟩ := d.rx_escape
    rw [Dec.feed_cons, hesc]
    exact Dec.rx_storesAtMostOne { d with st := st } b

/-- A received byte that is answered error changes the state register only (R16, R122, R123). -/
theorem Dec.rx_of_error {d : Dec} {b : Byte} (herr : (d.rx b).2 = .error) : (d.rx b).1 = { d with st := .error } := by
  obtain ⟨-, h⟩ | ⟨-, -, h⟩ | ⟨-, -, h⟩ | ⟨-, -, h⟩ | ⟨-, -, -, h⟩ | ⟨-, -, -, h⟩ | ⟨-, -, -, -, h⟩ | ⟨-, -, -, h⟩ :=
    d.rx_cases b <;> simp [h, Dec.resync] at herr ⊢

/-! What a step does to the blocks. -/

/-- Everything a step can do to the blocks: a command of ENC with DEC untouched, or with ENC untouched a reset of DEC or a feed
of bytes to it, of none at all when the step is idle. -/
theorem step_blocks {s t : State} (h : step s = .next t) :
    (t.dec = s.dec ∧ ∃ c, t.enc = (s.enc.cmd c).1) ∨
    (t.enc = s.enc ∧ (t.dec = s.dec.clear ∨ ∃ bytes, t.dec = (s.dec.feed bytes).1)) := by
  unfold step at h
  cases haction : (fetch s.inputs).1 with
  | idle => rw [haction] at h; cases h; exact .inr ⟨rfl, .inr ⟨[], rfl⟩⟩
  | hardReset block =>
    rw [haction] at h
    cases block with
    | enc => cases h; exact .inl ⟨rfl, .reset, rfl⟩
    | dec => cases h; exact .inr ⟨rfl, .inl rfl⟩
  | run i =>
    rw [haction, perform] at h
    obtain ⟨c, -, hexec⟩ | ⟨_, -, hexec⟩ | ⟨b, -, hexec⟩ | ⟨bytes, -, hexec⟩ :=
      exec_cases i (s.withInputs (fetch s.inputs).2) <;> rw [hexec] at h <;> cases h
    · exact .inl ⟨rfl, c, rfl⟩
    · exact .inr ⟨rfl, .inl rfl⟩
    · exact .inr ⟨rfl, .inr ⟨[b], rfl⟩⟩
    · exact .inr ⟨rfl, .inr ⟨bytes, rfl⟩⟩

/-- No step changes a capacity (R22). -/
theorem step_cap {s t : State} (h : step s = .next t) : t.enc.cap = s.enc.cap ∧ t.dec.cap = s.dec.cap := by
  obtain ⟨hdec, c, henc⟩ | ⟨henc, hdec | ⟨bytes, hdec⟩⟩ := step_blocks h <;> simp [henc, hdec]

/-- Settles O10: a command of ENC, a reset of DEC and a feed of bytes each keep the invariant of their block. -/
theorem everyStepKeepsTheInvariant : Obligations.EveryStepKeepsTheInvariant := by
  intro s t ⟨hencInv, hdecInv⟩ h
  obtain ⟨hdec, c, henc⟩ | ⟨henc, hdec | ⟨bytes, hdec⟩⟩ := step_blocks h
  · exact ⟨henc ▸ Enc.cmd_inv hencInv c, hdec ▸ hdecInv⟩
  · exact ⟨henc ▸ hencInv, hdec ▸ Dec.clear_inv hdecInv⟩
  · exact ⟨henc ▸ hencInv, hdec ▸ Dec.feed_inv hdecInv bytes⟩

/-! Reset, and runs from it. -/

/-- Settles O11: after reset no byte is listed and none lies below a length. -/
theorem resetMeetsTheInvariant : Obligations.ResetMeetsTheInvariant :=
  have hbelow (n : Nat) : Memory.below [] n := fun _ hc => absurd hc List.not_mem_nil
  have hwritten : Memory.written [] 0 := fun i hi => absurd hi i.not_lt_zero
  ⟨⟨Nat.zero_le _, hbelow _, hwritten, rfl⟩, ⟨Nat.zero_le _, hbelow _, hwritten, rfl⟩⟩

/-- Settles O14: each value is the one that reset writes. -/
theorem resetValues : Obligations.ResetValues :=
  ⟨rfl, rfl, rfl, rfl, rfl, fun i => ⟨Memory.read_nil i, Memory.read_nil i⟩⟩

/-- What every step of a machine keeps, every run of it keeps. -/
theorem run_keeps (M : Host.Core) {P : M.State → Prop} (hstep : ∀ s t, P s → M.step s = .next t → P t) {k : Nat}
    {s t : M.State} (hs : P s) (hrun : M.run k s = .next t) : P t := by
  induction k generalizing s with
  | zero => cases hrun; exact hs
  | succ k ih =>
    rw [Host.Core.run] at hrun
    split at hrun
    · next u hu => exact ih (hstep s u hs hu) hrun
    · cases hrun
    · cases hrun

/-- No run changes a capacity (R22). -/
theorem run_cap {k : Nat} {s t : State} (hrun : core.run k s = .next t) :
    t.enc.cap = s.enc.cap ∧ t.dec.cap = s.dec.cap :=
  run_keeps core (P := fun u : State => u.enc.cap = s.enc.cap ∧ u.dec.cap = s.dec.cap)
    (fun _ _ hu h => ⟨(step_cap h).1.trans hu.1, (step_cap h).2.trans hu.2⟩) ⟨rfl, rfl⟩ hrun

theorem State.Inv.withInputs {s : State} (h : s.Inv) (inputs : List Input) : (s.withInputs inputs).Inv :=
  ⟨h.enc, h.dec⟩

/-- Every run from reset meets the invariant, whatever is presented. -/
theorem run_reset_inv {presented : List Input} {k : Nat} {t : State}
    (hrun : core.run k (State.reset.withInputs presented) = .next t) : t.Inv :=
  run_keeps core everyStepKeepsTheInvariant (resetMeetsTheInvariant.withInputs presented) hrun

/-- Nothing has been written at or past a bound of the listed indices. -/
theorem Memory.read_eq_none_of_below {m : Memory} {n i : Nat} (hm : m.below n) (hi : n ≤ i) : m.read i = none := by
  induction m with
  | nil => rfl
  | cons cell rest ih =>
    obtain ⟨hcell, hrest⟩ := List.forall_mem_cons.1 hm
    rw [Memory.read, if_neg (by omega), ih hrest]

/-- Settles O12: from the invariant on runs from reset. -/
theorem lengthsStayWithinTheCapacities : Obligations.LengthsStayWithinTheCapacities := by
  intro presented k t hrun
  obtain ⟨henc, hdec⟩ := run_reset_inv hrun
  obtain ⟨hencCap, hdecCap⟩ := run_cap hrun
  exact ⟨henc.len_le, hdec.len_le, hencCap, hdecCap,
    fun _ hi => Memory.read_eq_none_of_below henc.below hi, fun _ hi => Memory.read_eq_none_of_below hdec.below hi⟩

/-! The rows. -/

/-- Settles O13, from what a failing and a succeeding command of ENC and an erroneous byte do to their block. -/
theorem noPartialMutation : Obligations.NoPartialMutation := by
  refine ⟨fun i c s t hi hlen ht => ?_, fun i b s t hi ht hrsp => ?_⟩
  · rw [exec_of_encCmd hi] at ht
    cases ht
    simp only [State.putEnc_rsp, List.cons.injEq, Rsp.enc.injEq, and_true]
    exact ⟨fun hfail => Enc.cmd_of_fail hlen hfail, fun hok hc => Enc.cmd_of_ok hc hok⟩
  · rw [exec_of_rxByte hi] at ht
    cases ht
    simp only [State.putDec_rsp, List.cons.injEq, Rsp.dec.injEq, and_true] at hrsp
    exact Dec.rx_of_error hrsp

/-- Settles O19: an ENC row is a command of ENC, which stores at its own bytes only. -/
theorem encRowsFrame : Obligations.EncRowsFrame := by
  intro i c s t hi ht
  rw [exec_of_encCmd hi] at ht
  cases ht
  exact ⟨rfl, rfl, Enc.cmd_cap s.enc c, fun _ hk => Enc.cmd_read_of_outside s.enc c hk⟩

/-- An instruction that is no ENC row touches of the state DEC and the responses only, and stores at most one byte. -/
theorem exec_of_encCmd_none {i : Instr} {s t : State} (hi : i.encCmd = none) (ht : exec i s = .next t) :
    t.enc = s.enc ∧ t.inputs = s.inputs ∧ t.dec.cap = s.dec.cap ∧ s.dec.StoresAtMostOne t.dec := by
  obtain ⟨c, hc, -⟩ | ⟨_, -, hexec⟩ | ⟨b, -, hexec⟩ | ⟨bytes, hbytes, hexec⟩ := exec_cases i s
  · simp [hi] at hc
  all_goals rw [hexec] at ht; cases ht
  · exact ⟨rfl, rfl, rfl, .inl rfl⟩
  · exact ⟨rfl, rfl, Dec.rx_cap _ _, Dec.rx_storesAtMostOne _ _⟩
  · exact ⟨rfl, rfl, Dec.feed_cap _ _, Dec.feed_wireBytes_storesAtMostOne _ hbytes⟩

/-- Settles O20: at most one byte is stored, at the cursor, and then the length goes up by one. -/
theorem decAndWireRowsFrame : Obligations.DecAndWireRowsFrame := by
  intro i s t hi ht
  obtain ⟨henc, hinputs, hcap, hstores⟩ := exec_of_encCmd_none hi ht
  exact ⟨henc, hinputs, hcap, fun _ hk => hstores.read_of_ne hk, hstores.buf_of_len_ne⟩

end Sys2Proof.Machine
end

section
/-! PROOFS. The memory (20_memory.md): how far a step moves a length, that no stored byte is ever read by a step, the read
ports, and what the transport's bytes and units do to DEC. -/

namespace Sys2Proof

/-! The bytes behind what the decoders answer. -/

/-- The row reached for an RX of `b` receives `b`. -/
theorem decRxRow_rxByte (b : Byte) : (decRxRow b).rxByte = some b := by
  by_cases hrow : b ∈ ([0x7F, 0x7E, 0x7D, 0x5D, 0x5E, 0x5F] : List Byte)
  · simp only [List.mem_cons, List.not_mem_nil, or_false] at hrow
    obtain rfl | rfl | rfl | rfl | rfl | rfl := hrow <;> rfl
  · rw [decRxRow_of_data b (Laws.ClassRow.classify_data_of_notMem b hrow)]
    rfl

/-- An escape pair that is read as `i` is ESCAPE and the second byte of the unit `i` (R51). -/
theorem decodeEscapePair_wireBytes {c : Byte} {rest left : List Byte} {i : Instr}
    (h : decodeEscapePair c rest = .instr i left) : i.wireBytes = some [0x7D, c] ∧ rest = left := by
  unfold decodeEscapePair at h
  split at h
  case isTrue hc => rw [eq_of_beq hc]; cases h; exact ⟨rfl, rfl⟩
  split at h
  case isTrue hc => rw [eq_of_beq hc]; cases h; exact ⟨rfl, rfl⟩
  split at h
  case isTrue hc => rw [eq_of_beq hc]; cases h; exact ⟨rfl, rfl⟩
  cases h

/-- A line whose first unit is `i` begins with the bytes of `i`, and what is left follows them (R51, R55). -/
theorem decodeLine_wireBytes {bytes left : List Byte} {i : Instr} (h : decodeLine bytes = .instr i left) :
    ∃ unit, i.wireBytes = some unit ∧ bytes = unit ++ left := by
  cases bytes with
  | nil => cases h
  | cons b rest =>
    simp only [decodeLine] at h
    split at h
    case isTrue hesc =>
      cases rest with
      | nil => cases h
      | cons c rest' =>
        obtain ⟨hunit, rfl⟩ := decodeEscapePair_wireBytes h
        exact ⟨_, hunit, by rw [eq_of_beq hesc]; rfl⟩
    split at h
    case isTrue hstart => rw [eq_of_beq hstart]; cases h; exact ⟨_, rfl, rfl⟩
    split at h
    case isTrue hend => rw [eq_of_beq hend]; cases h; exact ⟨_, rfl, rfl⟩
    cases h
    exact ⟨_, rfl, rfl⟩

end Sys2Proof

namespace Sys2Proof.Machine

/-! How far a step moves a length (R31, R35). -/

/-- A command of ENC sets the length to 0 or 1, or advances it by at most 2. -/
theorem Enc.cmd_len_cases (e : Enc) (c : EncCmd) :
    (e.cmd c).1.len = 0 ∨ (e.cmd c).1.len = 1 ∨ (e.cmd c).1.len = e.len ∨ (e.cmd c).1.len = e.len + 1 ∨
      (e.cmd c).1.len = e.len + 2 := by
  have hwidth (b : Byte) : (escapeSeq b).length = 1 ∨ (escapeSeq b).length = 2 := by
    rw [escapeSeq_length]; split <;> simp
  obtain ⟨-, h⟩ | h | ⟨-, h⟩ := e.cmd_cases c <;> rw [h]
  · exact .inl rfl
  · cases c with
    | reset => exact .inr (.inr (.inl rfl))
    | start => exact .inr (.inl rfl)
    | write b => exact .inr (.inr (.inr ((hwidth b).imp (congrArg (e.len + ·)) (congrArg (e.len + ·)))))
    | finish => exact .inr (.inr (.inr (.inl rfl)))
  · cases c with
    | start => exact .inl rfl
    | reset | write | finish => exact .inr (.inr (.inl rfl))

/-- From `d` to `d'`, DEC's length is set back to 0, stays, or advances by 1. -/
def Dec.LenMovesByAtMostOne (d d' : Dec) : Prop := d'.len = 0 ∨ d'.len = d.len ∨ d'.len = d.len + 1

theorem Dec.rx_lenMovesByAtMostOne (d : Dec) (b : Byte) : d.LenMovesByAtMostOne (d.rx b).1 := by
  obtain ⟨-, h⟩ | ⟨-, -, h⟩ | ⟨-, -, h⟩ | ⟨-, -, h⟩ | ⟨-, -, -, h⟩ | ⟨-, -, -, h⟩ | ⟨-, -, -, -, h⟩ | ⟨-, -, -, h⟩ :=
    d.rx_cases b <;> rw [h]
  · exact .inl rfl
  · exact .inr (.inl rfl)
  · exact .inr (.inl rfl)
  · exact .inr (.inl rfl)
  · exact .inr (.inr rfl)
  · exact .inr (.inl rfl)
  · exact .inr (.inr rfl)
  · exact .inr (.inl rfl)

/-- A unit of the wire format advances the length by at most 1, though it may have two bytes: its ESCAPE moves no length. -/
theorem Dec.feed_wireBytes_lenMovesByAtMostOne (d : Dec) {i : Instr} {bytes : List Byte}
    (h : i.wireBytes = some bytes) : d.LenMovesByAtMostOne (d.feed bytes).1 := by
  obtain ⟨b, rfl | rfl⟩ := wireBytes_cases h
  · exact d.rx_lenMovesByAtMostOne b
  · obtain ⟨st, hesc⟩ := d.rx_escape
    rw [Dec.feed_cons, hesc]
    exact Dec.rx_lenMovesByAtMostOne { d with st := st } b

theorem exec_dec_lenMovesByAtMostOne {i : Instr} {s t : State} (h : exec i s = .next t) :
    s.dec.LenMovesByAtMostOne t.dec := by
  obtain ⟨c, -, hexec⟩ | ⟨_, -, hexec⟩ | ⟨b, -, hexec⟩ | ⟨bytes, hbytes, hexec⟩ := exec_cases i s <;>
    rw [hexec] at h <;> cases h
  · exact .inr (.inl rfl)
  · exact .inl rfl
  · exact s.dec.rx_lenMovesByAtMostOne b
  · exact s.dec.feed_wireBytes_lenMovesByAtMostOne hbytes

theorem perform_dec_lenMovesByAtMostOne {action : Action} {s t : State} (h : perform action s = .next t) :
    s.dec.LenMovesByAtMostOne t.dec := by
  cases action with
  | idle => cases h; exact .inr (.inl rfl)
  | hardReset block =>
    cases block with
    | enc => cases h; exact .inr (.inl rfl)
    | dec => cases h; exact .inl rfl
  | run i => exact exec_dec_lenMovesByAtMostOne h

theorem step_dec_lenMovesByAtMostOne {s t : State} (h : step s = .next t) : s.dec.LenMovesByAtMostOne t.dec :=
  perform_dec_lenMovesByAtMostOne (s := s.withInputs (fetch s.inputs).2) h

/-- Settles O16: ENC is left alone or takes one command, and DEC receives at most one unit of the wire format. -/
theorem stepsMoveLengthsOnlyAsTheRulesSay : Obligations.StepsMoveLengthsOnlyAsTheRulesSay := by
  intro s t h
  obtain ⟨hencCap, hdecCap⟩ := step_cap h
  refine ⟨hencCap, hdecCap, ?_, step_dec_lenMovesByAtMostOne h⟩
  obtain ⟨-, c, henc⟩ | ⟨henc, -⟩ := step_blocks h <;> rw [henc]
  · exact s.enc.cmd_len_cases c
  · exact .inr (.inr (.inl rfl))

/-! No step reads a buffer (R32): run with other bytes in the buffers, it does the same but for bytes in the buffers. -/

/-- ENC with another buffer. -/
def Enc.withBuf (e : Enc) (m : Memory) : Enc := { e with buf := m }

/-- DEC with another buffer. -/
def Dec.withBuf (d : Dec) (m : Memory) : Dec := { d with buf := m }

/-- The machine with other buffers. -/
def State.withBufs (s : State) (m n : Memory) : State := { s with enc := s.enc.withBuf m, dec := s.dec.withBuf n }

/-- States that differ in nothing but the buffers' bytes are each other with other buffers. -/
theorem State.sameButBuffers_iff {s s' : State} : s.sameButBuffers s' ↔ ∃ m n, s' = s.withBufs m n := by
  constructor
  · rintro ⟨hencCap, hencLen, hdecCap, hdecLen, hst, hrsp, hinputs⟩
    obtain ⟨⟨_, _, m⟩, ⟨_, _, n, _⟩, _, _⟩ := s'
    cases hencCap; cases hencLen; cases hdecCap; cases hdecLen; cases hst; cases hrsp; cases hinputs
    exact ⟨m, n, rfl⟩
  · rintro ⟨m, n, rfl⟩
    exact ⟨rfl, rfl, rfl, rfl, rfl, rfl, rfl⟩

theorem Enc.append_withBuf (e : Enc) (m : Memory) (bytes : List Byte) :
    ∃ m', (e.withBuf m).append bytes = ((e.append bytes).1.withBuf m', (e.append bytes).2) := by
  obtain ⟨hroom, h⟩ | ⟨hroom, h⟩ := e.append_cases bytes <;> rw [h]
  · exact ⟨_, Enc.append_ok hroom⟩
  · exact ⟨m, Enc.append_fail hroom⟩

theorem Enc.cmd_withBuf (e : Enc) (m : Memory) (c : EncCmd) :
    ∃ m', (e.withBuf m).cmd c = ((e.cmd c).1.withBuf m', (e.cmd c).2) := by
  simp only [Enc.cmd_eq]
  cases c with
  | reset => exact ⟨m, rfl⟩
  | start => exact e.clear.append_withBuf m _
  | write b => exact e.append_withBuf m _
  | finish => exact e.append_withBuf m _

theorem Dec.payloadByte_withBuf (d : Dec) (m : Memory) (b : Byte) :
    ∃ m', (d.withBuf m).payloadByte b = ((d.payloadByte b).1.withBuf m', (d.payloadByte b).2) := by
  have hrem : (d.withBuf m).rem = d.rem := rfl
  rw [Dec.payloadByte, Dec.payloadByte, hrem]
  split <;> exact ⟨_, rfl⟩

theorem Dec.escapedByte_withBuf (d : Dec) (m : Memory) (b : Byte) :
    ∃ m', (d.withBuf m).escapedByte b = ((d.escapedByte b).1.withBuf m', (d.escapedByte b).2) := by
  have hrem : (d.withBuf m).rem = d.rem := rfl
  rw [Dec.escapedByte, Dec.escapedByte, hrem]
  split
  · split <;> exact ⟨_, rfl⟩
  · exact ⟨m, rfl⟩

theorem Dec.rx_withBuf (d : Dec) (m : Memory) (b : Byte) :
    ∃ m', (d.withBuf m).rx b = ((d.rx b).1.withBuf m', (d.rx b).2) := by
  have hst : (d.withBuf m).st = d.st := rfl
  rw [Dec.rx, Dec.rx, hst]
  split
  · exact ⟨m, rfl⟩
  · cases d.st with
    | awaitingStart | error => exact ⟨m, rfl⟩
    | inMessage =>
      dsimp only
      split
      · exact ⟨m, rfl⟩
      split
      · exact ⟨m, rfl⟩
      · exact d.payloadByte_withBuf m b
    | inEscape => exact d.escapedByte_withBuf m b

theorem Dec.feed_withBuf (d : Dec) (m : Memory) (bytes : List Byte) :
    ∃ m', (d.withBuf m).feed bytes = ((d.feed bytes).1.withBuf m', (d.feed bytes).2) := by
  induction bytes generalizing d m with
  | nil => exact ⟨m, rfl⟩
  | cons b bytes ih =>
    obtain ⟨m₁, hrx⟩ := d.rx_withBuf m b
    obtain ⟨m₂, hfeed⟩ := ih (d.rx b).1 m₁
    exact ⟨m₂, by simp only [Dec.feed_cons, hrx, hfeed]⟩

theorem exec_withBufs {i : Instr} {s t : State} (m n : Memory) (h : exec i s = .next t) :
    ∃ m' n', exec i (s.withBufs m n) = .next (t.withBufs m' n') := by
  obtain ⟨c, hi, hexec⟩ | ⟨_, rfl, hexec⟩ | ⟨b, hi, hexec⟩ | ⟨bytes, hi, hexec⟩ := exec_cases i s <;>
    rw [hexec] at h <;> cases h
  · obtain ⟨m', hcmd⟩ := s.enc.cmd_withBuf m c
    exact ⟨m', n, by rw [exec_of_encCmd hi, State.withBufs, hcmd]; rfl⟩
  · exact ⟨m, n, rfl⟩
  · obtain ⟨n', hrx⟩ := s.dec.rx_withBuf n b
    exact ⟨m, n', by rw [exec_of_rxByte hi, State.withBufs, hrx]; rfl⟩
  · obtain ⟨n', hfeed⟩ := s.dec.feed_withBuf n bytes
    exact ⟨m, n', by rw [exec_of_wireBytes hi, State.withBufs, hfeed]; rfl⟩

theorem perform_withBufs {action : Action} {s t : State} (m n : Memory) (h : perform action s = .next t) :
    ∃ m' n', perform action (s.withBufs m n) = .next (t.withBufs m' n') := by
  cases action with
  | idle => cases h; exact ⟨m, n, rfl⟩
  | hardReset block => cases block <;> cases h <;> exact ⟨m, n, rfl⟩
  | run i => exact exec_withBufs m n h

/-- Settles O17: what is fetched does not depend on the buffers, and what is done then does the same with other buffers. -/
theorem noStepDependsOnBufferContents : Obligations.NoStepDependsOnBufferContents := by
  intro s s' t t' hsame ht ht'
  obtain ⟨m, n, rfl⟩ := State.sameButBuffers_iff.1 hsame
  obtain ⟨m', n', hperform⟩ := perform_withBufs m n ht
  have hstep : step (s.withBufs m n) = .next (t.withBufs m' n') := hperform
  rw [hstep] at ht'
  cases ht'
  exact State.sameButBuffers_iff.2 ⟨m', n', rfl⟩

/-! The read ports (R38). -/

/-- Settles O18: both ports test the index against the capacity, and below it answer the byte last written if there is one. -/
theorem readPortsAnswerBelowTheCapacity : Obligations.ReadPortsAnswerBelowTheCapacity := by
  refine ⟨fun e i => ⟨fun hi => ?_, fun hi => ⟨_, if_pos hi, fun c hc => ?_⟩⟩,
    fun d i => ⟨fun hi => ?_, fun hi => ⟨_, if_pos hi, fun c hc => ?_⟩⟩⟩
  · exact if_neg (Nat.not_lt.2 hi)
  · rw [hc, Option.getD_some]
  · exact if_neg (Nat.not_lt.2 hi)
  · rw [hc, Option.getD_some]

/-! What DEC does with the transport's bytes (R43). -/

/-- Settles O39: the bytes are fed to DEC, which discards them all. -/
theorem bytesOtherThanStartLeaveTheReadWindow : Obligations.BytesOtherThanStartLeaveTheReadWindow := by
  intro bytes s hstart hst
  obtain ⟨t, hrun, hdec, henc, -⟩ := execAll_feedInstrs s bytes
  rw [Dec.feed_discard hst hstart] at hrun hdec
  exact ⟨t, by simpa using hrun, hdec, henc⟩

/-- Settles O44: both sides are the feed of the unit's bytes. -/
theorem wireUnitIsItsBytesReceived : Obligations.WireUnitIsItsBytesReceived := by
  intro i bytes s hi
  obtain ⟨u, hrun, hdec, henc, hinputs⟩ := execAll_feedInstrs s bytes
  exact ⟨_, u, _, exec_of_wireBytes hi s, hrun, hdec.symm, henc.symm, hinputs.symm, rfl⟩

/-- END in InMessage completes the message (R95). -/
theorem Dec.rx_endByte {d : Dec} (hst : d.st = .inMessage) :
    d.rx Config.endByte = ({ d with st := .awaitingStart }, .complete d.len) := by
  rw [Dec.rx, hst]; rfl

/-- ESCAPE in InMessage opens an escape (R94). -/
theorem Dec.rx_escapeByte {d : Dec} (hst : d.st = .inMessage) :
    d.rx Config.escapeByte = ({ d with st := .inEscape }, .pending) := by
  rw [Dec.rx, hst]; rfl

/-- An ordinary byte in InMessage is stored where there is room (R96). -/
theorem Dec.rx_ordinary {d : Dec} {x : Byte} (hst : d.st = .inMessage) (hroom : d.len < d.cap)
    (hx : isSpecial x = false) : d.rx x = (d.store x, .pending) := by
  have hrem : 0 < d.rem := Nat.sub_pos_of_lt hroom
  simp only [isSpecial, Bool.or_eq_false_iff] at hx
  obtain ⟨⟨hstart, hend⟩, hesc⟩ := hx
  simp [Dec.rx, hst, hstart, hend, hesc, Dec.payloadByte, hrem]

/-- The escape code of a special byte in InEscape stores that byte where there is room (R97). -/
theorem Dec.rx_maskByte {d : Dec} {x : Byte} (hst : d.st = .inEscape) (hroom : d.len < d.cap)
    (hx : isSpecial x = true) : d.rx (maskByte x) = ({ d.store x with st := .inMessage }, .pending) := by
  have hrem : 0 < d.rem := Nat.sub_pos_of_lt hroom
  have hstart : (maskByte x == Config.startByte) = false := beq_false_of_ne (maskByte_ne_start_of_isSpecial x hx)
  simp [Dec.rx, hst, hstart, Dec.escapedByte, hx, hrem]

/-- The escape sequence of a payload byte in InMessage stores that byte where there is room, and every byte of it is answered
pending (R94, R96, R97). -/
theorem Dec.feed_escapeSeq {d : Dec} (hst : d.st = .inMessage) (hroom : d.len < d.cap) (x : Byte) :
    d.feed (escapeSeq x) = (d.store x, List.replicate (escapeSeq x).length .pending) := by
  cases hx : isSpecial x with
  | false => simp [escapeSeq_of_ordinary hx, Dec.rx_ordinary hst hroom hx]
  | true =>
    have hcode : ({ d with st := .inEscape } : Dec).rx (maskByte x) = (d.store x, .pending) := by
      rw [Dec.rx_maskByte (d := { d with st := .inEscape }) rfl hroom hx, ← hst]; rfl
    rw [escapeSeq_of_special hx, Dec.feed_cons, Dec.rx_escapeByte hst, Dec.feed_cons, hcode]
    rfl

/-- A WIRE row whose bytes are the escape sequence of `x` stores `x` in InMessage where there is room. -/
theorem exec_wire_escapeSeq {i : Instr} {x : Byte} (hi : i.wireBytes = some (escapeSeq x)) {s : State}
    (hst : s.dec.st = .inMessage) (hroom : s.dec.len < s.dec.cap) :
    ∃ t, exec i s = .next t ∧ DecStored s t x (List.replicate (escapeSeq x).length (.dec .pending)) := by
  refine ⟨_, exec_of_wireBytes hi s, ?_⟩
  rw [Dec.feed_escapeSeq hst hroom]
  exact ⟨rfl, hst, Memory.read_write_self .., fun _ hk => Memory.read_write_of_ne hk, rfl, rfl, rfl, by simp⟩

/-- Settles O43: WIRE.START and WIRE.END are the one byte START and END; the other rows are the escape sequences of R51. -/
theorem wireUnitsArriveAtTheDecoder : Obligations.WireUnitsArriveAtTheDecoder := by
  refine fun s => ⟨rfl, fun hst => ?_, fun hst hroom => ⟨?_, ?_, ?_, fun x hx => ?_⟩⟩
  · rw [exec_of_wireBytes (i := .wireEnd) rfl, Dec.feed_cons, show (0x7E : Byte) = Config.endByte from rfl,
      Dec.rx_endByte hst]
    rfl
  · exact exec_wire_escapeSeq (i := .wireE7D) (x := 0x7D) rfl hst hroom
  · exact exec_wire_escapeSeq (i := .wireE7E) (x := 0x7E) rfl hst hroom
  · exact exec_wire_escapeSeq (i := .wireE7F) (x := 0x7F) rfl hst hroom
  · have hseq := escapeSeq_of_ordinary hx
    have hstored := exec_wire_escapeSeq (i := .wireEOrdinary x) (congrArg some hseq.symm) hst hroom
    rwa [hseq] at hstored

/-! Lines and table words (R41, R43). -/

/-- A step that takes from a line takes some first bytes of it, one at least, and feeds exactly these to DEC (R43). -/
theorem step_line {s : State} {b : Byte} {more : List Byte} {rest : List Input}
    (hs : s.inputs = .line (b :: more) :: rest) :
    ∃ t taken left, step s = .next t ∧ taken ≠ [] ∧ b :: more = taken ++ left ∧ t.inputs = keepLine left rest ∧
      t.dec = (s.dec.feed taken).1 ∧ t.enc = s.enc := by
  cases hline : decodeLine (b :: more) with
  | instr i left =>
    obtain ⟨unit, hunit, hbytes⟩ := decodeLine_wireBytes hline
    have hne : unit ≠ [] := by obtain ⟨c, rfl | rfl⟩ := wireBytes_cases hunit <;> exact List.cons_ne_nil _ _
    have hfetch : fetch s.inputs = (.run i, keepLine left rest) := hs ▸ fetchLine_of_decodeLine hline rest
    exact ⟨_, unit, left, (step_of_fetch_run hfetch).trans (exec_of_wireBytes hunit _), hne, hbytes, rfl, rfl, rfl⟩
  | rejected e =>
    have hfetch : fetch s.inputs = (.run (decRxRow b), keepLine more rest) := by
      rw [hs]; simp only [fetch, fetchLine, hline]
    exact ⟨_, [b], more, (step_of_fetch_run hfetch).trans (exec_of_rxByte (decRxRow_rxByte b) _),
      List.cons_ne_nil _ _, rfl, rfl, rfl, rfl⟩

/-- A run that begins with a step to `u` goes on from `u`. -/
theorem run_succ_of_step {M : Host.Core} {s u : M.State} (h : M.step s = .next u) (k : Nat) :
    M.run (k + 1) s = M.run k u := by
  rw [Host.Core.run, h]

/-- The bytes that stay on a line are fed in at most as many steps as there are bytes: each step takes one at least. -/
theorem run_line (bytes : List Byte) (s : State) (hs : s.inputs = keepLine bytes []) :
    ∃ k t, k ≤ bytes.length ∧ core.run k s = .next t ∧ t.inputs = [] ∧ t.dec = (s.dec.feed bytes).1 ∧
      t.enc = s.enc := by
  match bytes with
  | [] => exact ⟨0, s, le_rfl, rfl, hs, rfl, rfl⟩
  | b :: more =>
    obtain ⟨u, taken, left, hstep, hne, hbytes, hinputs, hdec, henc⟩ := step_line hs
    have hlength : more.length + 1 = taken.length + left.length := by simpa using congrArg List.length hbytes
    have htaken : 0 < taken.length := List.length_pos_of_ne_nil hne
    obtain ⟨k, t, hk, hrun, hdone, htdec, htenc⟩ := run_line left u hinputs
    refine ⟨k + 1, t, by rw [List.length_cons]; omega, (run_succ_of_step (M := core) hstep k).trans hrun, hdone, ?_,
      htenc.trans henc⟩
    rw [htdec, hdec, hbytes, Dec.feed_append]
termination_by bytes.length

/-- Settles O51: an empty line takes one idle step; another is fed by the steps that take from it. -/
theorem lineIsFedByteByByte : Obligations.LineIsFedByteByByte := by
  intro bytes s hs
  cases bytes with
  | nil =>
    have hstep : step s = .next (s.withInputs []).idle := by rw [step, hs]; rfl
    exact ⟨1, _, le_rfl, run_succ_of_step (M := core) hstep 0, rfl, rfl, rfl⟩
  | cons b more =>
    obtain ⟨k, t, hk, hrun, hfed⟩ := run_line (b :: more) s hs
    exact ⟨k, t, Nat.le_succ_of_le hk, hrun, hfed⟩

/-- A table word that decodes to `i` is presented where `i` is decoded from. -/
theorem tableInput_of_decodeTableWord {nbits w : Nat} {i : Instr} (h : decodeTableWord nbits w = some i) :
    ∃ input left, tableInput nbits w = some input ∧ decode input = .instr i left := by
  unfold decodeTableWord at h
  split at h
  · cases h
  · next input hinput =>
    split at h
    · next j left hdecode =>
      cases h
      exact ⟨input, left, hinput, hdecode⟩
    · cases h

/-- Settles O52: the word is presented in front of everything else, so that it is what the step fetches. -/
theorem presentedTableWordIsRun : Obligations.PresentedTableWordIsRun := by
  intro s nbits w i h
  obtain ⟨input, left, hinput, hdecode⟩ := tableInput_of_decodeTableWord h
  rw [State.withFetchWord, hinput]
  exact step_of_fetch_run (fetch_of_decode hdecode s.inputs)

end Sys2Proof.Machine
end

section
/-! PROOFS. The encoding (30_encoding.md): the wire format, decode and encode of command words and of units of the line, the
fields that are ignored, the output ports, and the pseudo-instruction `enc.frame`. -/

namespace Sys2Proof

/-! The wire format (R50, R51). -/

/-- An escaped payload has one byte per payload byte, and one more for each special one (R52). -/
theorem flatMap_escapeSeq_length (payload : List Byte) :
    (payload.flatMap escapeSeq).length = payload.length + specialCount payload := by
  induction payload with
  | nil => rfl
  | cons b rest ih =>
    rw [List.flatMap_cons, List.length_append, escapeSeq_length, ih, List.length_cons, specialCount, specialCount,
      List.countP_cons]
    split <;> omega

/-- Settles O1: START and END stand around the escaped payload, of whose bytes at most all are special. -/
theorem frameLengthCountsSpecialBytesTwice : Obligations.FrameLengthCountsSpecialBytesTwice := by
  intro payload
  have hlength : (frameOf payload).length = 2 + payload.length + specialCount payload := by
    simp only [frameOf, List.length_cons, List.length_append, List.length_nil, flatMap_escapeSeq_length]
    omega
  have hspecial : specialCount payload ≤ payload.length := List.countP_le_length
  exact ⟨hlength, by omega, by omega⟩

/-- An ordinary byte at the head of the line is a unit of its own (R51, R55). -/
theorem decodeLine_ordinary {x : Byte} (hx : isSpecial x = false) (rest : List Byte) :
    decodeLine (x :: rest) = .instr (.wireEOrdinary x) rest := by
  simp only [isSpecial, Config.startByte, Config.endByte, Config.escapeByte, Bool.or_eq_false_iff] at hx
  obtain ⟨⟨hstart, hend⟩, hesc⟩ := hx
  simp only [decodeLine, hstart, hend, hesc, Bool.false_eq_true, if_false]

/-- Settles O2: a special byte has a WIRE row of its own, and every other byte is WIRE.E_ORDINARY. -/
theorem lineUnitIsTheEscapeSequence : Obligations.LineUnitIsTheEscapeSequence := by
  intro x rest
  cases hx : isSpecial x with
  | true =>
    have hmem := (isSpecial_iff x).1 hx
    simp only [List.mem_cons, List.not_mem_nil, or_false] at hmem
    obtain rfl | rfl | rfl := hmem
    · exact ⟨.wireE7F, rfl, rfl, rfl, rfl⟩
    · exact ⟨.wireE7E, rfl, rfl, rfl, rfl⟩
    · exact ⟨.wireE7D, rfl, rfl, rfl, rfl⟩
  | false =>
    rw [escapeSeq_of_ordinary hx]
    exact ⟨.wireEOrdinary x, decodeLine_ordinary hx rest, by simp [Instr.WellFormed, hx], rfl, rfl⟩

/-! Encode, then decode (R57, R59). -/

@[simp] theorem decode_presentEnc (w : EncWord) : decode (presentEnc w) = .instr (decodeEnc w) [] := rfl

@[simp] theorem decode_presentDec (w : DecWord) : decode (presentDec w) = .instr (decodeDec w) [] := rfl

theorem decodeEnc_encWordOf_reset (data : Byte) : decodeEnc (encWordOf 0b00 data) = .encReset data :=
  decodeEnc_encWordOf 0b00 data

theorem decodeEnc_encWordOf_start (data : Byte) : decodeEnc (encWordOf 0b01 data) = .encStart data :=
  decodeEnc_encWordOf 0b01 data

theorem decodeEnc_encWordOf_write (b : Byte) : decodeEnc (encWordOf 0b10 b) = encWriteRow b :=
  decodeEnc_encWordOf 0b10 b

theorem decodeEnc_encWordOf_end (data : Byte) : decodeEnc (encWordOf 0b11 data) = .encEnd data :=
  decodeEnc_encWordOf 0b11 data

theorem decodeDec_decWordOf_reset (data : Byte) : decodeDec (decWordOf 0b0 data) = .decReset data :=
  decodeDec_decWordOf 0b0 data

theorem decodeDec_decWordOf_rx (b : Byte) : decodeDec (decWordOf 0b1 b) = decRxRow b :=
  decodeDec_decWordOf 0b1 b

/-- The words of a well-formed instruction decode to the row that a first-match decoder reaches for them. The operand checks
of the three catch-all rows are what keeps their bytes from the rows before them. -/
theorem decode_encode {i : Instr} (hi : i.WellFormed = true) : decode (encode i) = .instr i.classRow [] := by
  cases i with
  | encReset data => rw [encode, decode_presentEnc, decodeEnc_encWordOf_reset]; rfl
  | encStart data => rw [encode, decode_presentEnc, decodeEnc_encWordOf_start]; rfl
  | encEnd data => rw [encode, decode_presentEnc, decodeEnc_encWordOf_end]; rfl
  | encWriteSpecial7D | encWriteSpecial7E | encWriteSpecial7F | encWrite =>
    rw [encode, decode_presentEnc, decodeEnc_encWordOf_write]; rfl
  | encWriteOrdinary b =>
    have hb : isSpecial b = false := by simpa [Instr.WellFormed] using hi
    rw [encode, decode_presentEnc, decodeEnc_encWordOf_write, encWriteRow_of_ordinary b hb]; rfl
  | decReset data => rw [encode, decode_presentDec, decodeDec_decWordOf_reset]; rfl
  | decRxStart | decRxEnd | decRxEsc | decRxEsccode5D | decRxEsccode5E | decRxEsccode5F | decRx =>
    rw [encode, decode_presentDec, decodeDec_decWordOf_rx]; rfl
  | decRxData b =>
    have hb : classify b = .data := by simpa [Instr.WellFormed] using hi
    rw [encode, decode_presentDec, decodeDec_decWordOf_rx, decRxRow_of_data b hb]; rfl
  | wireStart | wireEnd | wireE7D | wireE7E | wireE7F => rfl
  | wireEOrdinary x =>
    have hx : isSpecial x = false := by simpa [Instr.WellFormed] using hi
    rw [encode, decode, decodeLine_ordinary hx]; rfl

/-- Every row but the two group rows is its own class row. -/
theorem Instr.classRow_of_ne_group {i : Instr} (hwrite : ∀ b, i ≠ .encWrite b) (hrx : ∀ b, i ≠ .decRx b) :
    i.classRow = i := by
  cases i with
  | encWrite b => exact absurd rfl (hwrite b)
  | decRx b => exact absurd rfl (hrx b)
  | _ => rfl

/-- Settles O5: decode of encode is the class row, which is the instruction itself but for the group rows. -/
theorem decodeOfEncodeIsTheInstruction : Obligations.DecodeOfEncodeIsTheInstruction :=
  fun _ hi => ⟨decode_encode hi, Instr.classRow_of_ne_group⟩

/-! Decode, then encode: every command word is the word of one instruction. -/

/-- An ENC word is its op and its data field. -/
theorem exists_eq_encWordOf (w : EncWord) : ∃ op data, w = encWordOf op data :=
  ⟨w.extractLsb' 8 2, w.extractLsb' 0 8, (BitVec.extractLsb'_append_extractLsb' (w := 2) (len := 8)).symm⟩

/-- A DEC word is its op and its data field. -/
theorem exists_eq_decWordOf (w : DecWord) : ∃ op data, w = decWordOf op data :=
  ⟨w.extractLsb' 8 1, w.extractLsb' 0 8, (BitVec.extractLsb'_append_extractLsb' (w := 1) (len := 8)).symm⟩

/-- The four ops of ENC (R57). -/
theorem encOp_cases : ∀ op : BitVec 2, op = 0b00 ∨ op = 0b01 ∨ op = 0b10 ∨ op = 0b11 := by
  decide

/-- The two ops of DEC (R59). -/
theorem decOp_cases : ∀ op : BitVec 1, op = 0b0 ∨ op = 0b1 := by
  decide

theorem encWriteRow_wellFormed (b : Byte) : (encWriteRow b).WellFormed = true :=
  (Laws.ClassRow.encWrite b rfl).1

theorem decRxRow_wellFormed (b : Byte) : (decRxRow b).WellFormed = true :=
  (Laws.ClassRow.decRx b rfl).1

theorem encode_encWriteRow (b : Byte) : encode (encWriteRow b) = presentEnc (encWordOf 0b10 b) := by
  cases hb : isSpecial b with
  | true =>
    have hmem := (isSpecial_iff b).1 hb
    simp only [List.mem_cons, List.not_mem_nil, or_false] at hmem
    obtain rfl | rfl | rfl := hmem <;> rfl
  | false => rw [encWriteRow_of_ordinary b hb]; rfl

/-- An RX row is presented to DEC as the RX word of its byte. -/
theorem encode_of_rxByte {i : Instr} {b : Byte} (hi : i.rxByte = some b) :
    encode i = presentDec (decWordOf 0b1 b) := by
  cases i <;> simp only [Instr.rxByte, Option.some.injEq, reduceCtorEq] at hi <;> subst hi <;> rfl

/-- No ENC word is illegal (D3). -/
theorem decodeEnc_wellFormed (w : EncWord) : (decodeEnc w).WellFormed = true := by
  obtain ⟨op, data, rfl⟩ := exists_eq_encWordOf w
  obtain rfl | rfl | rfl | rfl := encOp_cases op
  · rw [decodeEnc_encWordOf_reset]; rfl
  · rw [decodeEnc_encWordOf_start]; rfl
  · rw [decodeEnc_encWordOf_write]; exact encWriteRow_wellFormed data
  · rw [decodeEnc_encWordOf_end]; rfl

theorem encode_decodeEnc (w : EncWord) : encode (decodeEnc w) = presentEnc w := by
  obtain ⟨op, data, rfl⟩ := exists_eq_encWordOf w
  obtain rfl | rfl | rfl | rfl := encOp_cases op
  · rw [decodeEnc_encWordOf_reset]; rfl
  · rw [decodeEnc_encWordOf_start]; rfl
  · rw [decodeEnc_encWordOf_write]; exact encode_encWriteRow data
  · rw [decodeEnc_encWordOf_end]; rfl

/-- No DEC word is illegal (D4). -/
theorem decodeDec_wellFormed (w : DecWord) : (decodeDec w).WellFormed = true := by
  obtain ⟨op, data, rfl⟩ := exists_eq_decWordOf w
  obtain rfl | rfl := decOp_cases op
  · rw [decodeDec_decWordOf_reset]; rfl
  · rw [decodeDec_decWordOf_rx]; exact decRxRow_wellFormed data

theorem encode_decodeDec (w : DecWord) : encode (decodeDec w) = presentDec w := by
  obtain ⟨op, data, rfl⟩ := exists_eq_decWordOf w
  obtain rfl | rfl := decOp_cases op
  · rw [decodeDec_decWordOf_reset]; rfl
  · rw [decodeDec_decWordOf_rx]; exact encode_of_rxByte (decRxRow_rxByte data)

/-- Settles O4: each word is made of its two fields, each unit of its bytes. -/
theorem sampleWordsDecode : Obligations.SampleWordsDecode :=
  ⟨decodeEnc_encWordOf_reset 0x00, decodeEnc_encWordOf_start 0xFF, decodeEnc_encWordOf_write 0x7D,
    decodeEnc_encWordOf_write 0x41, decodeEnc_encWordOf_end 0xA5, decodeDec_decWordOf_reset 0xAB,
    decodeDec_decWordOf_rx 0x7F, decodeDec_decWordOf_rx 0x5E, decodeDec_decWordOf_rx 0x41, rfl,
    decodeLine_ordinary (x := 0x41) rfl []⟩

end Sys2Proof

namespace Sys2Proof.Machine

/-! A presented command word (R41). -/

/-- An instruction presented in front of everything else is what the step runs, on the state without it. -/
theorem step_present {s : State} {input : Input} {i : Instr} {left : List Byte} (h : decode input = .instr i left) :
    step (s.present input) = exec i s :=
  step_of_fetch_run (fetch_of_decode h s.inputs)

theorem step_presentEnc (s : State) (w : EncWord) : step (s.present (presentEnc w)) = exec (decodeEnc w) s :=
  step_present (decode_presentEnc w)

theorem step_presentDec (s : State) (w : DecWord) : step (s.present (presentDec w)) = exec (decodeDec w) s :=
  step_present (decode_presentDec w)

/-- Settles O3: no word is illegal, each is its fields, and a presented one is run. -/
theorem everyCommandWordIsOneInstruction : Obligations.EveryCommandWordIsOneInstruction :=
  ⟨fun w s => ⟨decodeEnc_wellFormed w, encode_decodeEnc w, step_presentEnc s w⟩,
    fun w s => ⟨decodeDec_wellFormed w, encode_decodeDec w, step_presentDec s w⟩⟩

/-- Settles O7: the rows of these ops carry the data field, and their meanings do not use it. -/
theorem ignoredDataFieldHasNoEffect : Obligations.IgnoredDataFieldHasNoEffect := by
  refine ⟨fun w w' s hop hwrite => ?_, fun w w' s hop hop' => ?_⟩
  · obtain ⟨op, data, rfl⟩ := exists_eq_encWordOf w
    obtain ⟨op', data', rfl⟩ := exists_eq_encWordOf w'
    rw [encWordOf_op, encWordOf_op] at hop
    rw [encWordOf_op] at hwrite
    subst hop
    rw [step_presentEnc, step_presentEnc]
    obtain rfl | rfl | rfl | rfl := encOp_cases op
    · rw [decodeEnc_encWordOf_reset, decodeEnc_encWordOf_reset]; rfl
    · rw [decodeEnc_encWordOf_start, decodeEnc_encWordOf_start]; rfl
    · exact absurd rfl hwrite
    · rw [decodeEnc_encWordOf_end, decodeEnc_encWordOf_end]; rfl
  · obtain ⟨op, data, rfl⟩ := exists_eq_decWordOf w
    obtain ⟨op', data', rfl⟩ := exists_eq_decWordOf w'
    rw [decWordOf_op] at hop hop'
    subst hop hop'
    rw [step_presentDec, step_presentDec, decodeDec_decWordOf_reset, decodeDec_decWordOf_reset]; rfl

/-! The output ports (R58, R59, R60). -/

/-- A length within the capacity fits in the length outputs. -/
theorem lt_two_pow_lenWidth {n cap : Nat} (h : n ≤ cap) : n < 2 ^ lenWidth cap := by
  unfold lenWidth
  split
  · omega
  · exact h.trans_lt Nat.lt_log2_self

/-- A length within the capacity loses nothing on a length output. -/
theorem toNat_ofNat_lenWidth {n cap : Nat} (h : n ≤ cap) : (BitVec.ofNat (lenWidth cap) n).toNat = n := by
  rw [BitVec.toNat_ofNat, Nat.mod_eq_of_lt (lt_two_pow_lenWidth h)]

/-- `rsp_ok` tells the two responses of ENC apart. -/
theorem EncRsp.bits_iff (r : EncRsp) : (r.bits = 1 ↔ r = .ok) ∧ (r.bits = 0 ↔ r = .fail) := by
  cases r <;> simp [EncRsp.bits]

/-- `rsp_status` tells the three kinds of response of DEC apart, and leaves 11 over. -/
theorem DecRsp.status_iff (r : DecRsp) :
    (r.status = 0b00 ↔ r = .pending) ∧ (r.status = 0b01 ↔ ∃ n, r = .complete n) ∧
      (r.status = 0b10 ↔ r = .error) ∧ r.status ≠ 0b11 := by
  cases r <;> simp [DecRsp.status]

/-- The `state` output tells the four states of DEC apart. -/
theorem DecState.bits_iff (st : DecState) :
    (st.bits = 0b00 ↔ st = .awaitingStart) ∧ (st.bits = 0b01 ↔ st = .inMessage) ∧
      (st.bits = 0b10 ↔ st = .inEscape) ∧ (st.bits = 0b11 ↔ st = .error) := by
  cases st <;> simp [DecState.bits]

theorem Dec.inError_iff (d : Dec) : d.inError = true ↔ d.st = .error := by
  simp [Dec.inError]

/-- Settles O8, port by port. -/
theorem outputPortsShowTheState : Obligations.OutputPortsShowTheState := by
  refine ⟨fun e h => toNat_ofNat_lenWidth h, fun d h => ⟨toNat_ofNat_lenWidth h, toNat_ofNat_lenWidth h⟩,
    EncRsp.bits_iff, DecRsp.status_iff, fun d => ?_⟩
  obtain ⟨hawaiting, hmessage, hescape, herror⟩ := DecState.bits_iff d.st
  exact ⟨hawaiting, hmessage, hescape, herror, d.inError_iff⟩

/-! A byte after ESCAPE (R56). -/

/-- START begins a message in every state (R92). -/
theorem Dec.rx_startByte (d : Dec) : d.rx Config.startByte = d.resync := rfl

/-- In InEscape, a byte that is neither START nor an escape code is a decode error that stores nothing (R97, R123). -/
theorem Dec.rx_badEscape {d : Dec} {b : Byte} (hst : d.st = .inEscape) (hstart : b ≠ Config.startByte)
    (hcode : isSpecial (maskByte b) = false) : d.rx b = ({ d with st := .error }, .error) := by
  simp [Dec.rx, hst, hstart, Dec.escapedByte, hcode, Dec.raise]

/-- Settles O9: ESCAPE opens an escape, and the byte after it is resynchronised on or raises an error. -/
theorem escapeThenAnyOtherByteIsAnError : Obligations.EscapeThenAnyOtherByteIsAnError := by
  intro b s hst hb
  have hcode : isSpecial (maskByte b) = false :=
    Bool.eq_false_iff.2 fun h => hb ((isSpecial_maskByte_iff b).1 h)
  obtain ⟨t, hrun, hdec, -⟩ := execAll_feedInstrs s [Config.escapeByte, b]
  rw [Dec.feed_cons, Dec.rx_escapeByte hst, Dec.feed_cons, Dec.feed_nil] at hrun hdec
  refine ⟨t, _, hrun, fun hne => ?_, fun heq => ?_⟩
  · rw [Dec.rx_badEscape rfl hne hcode] at hdec ⊢
    exact ⟨hdec, rfl⟩
  · subst heq
    exact ⟨hdec, rfl⟩

/-! The pseudo-instruction `enc.frame` (R64). -/

/-- The contract sequence after its START: a WRITE per payload byte, then END, in full, with the response of each. -/
def Enc.contractRest (e : Enc) (payload : List Byte) : Enc × List EncRsp :=
  ((e.writes payload).1.finish.1, (e.writes payload).2 ++ [(e.writes payload).1.finish.2])

theorem Enc.contractRest_nil (e : Enc) : e.contractRest [] = (e.finish.1, [e.finish.2]) := rfl

theorem Enc.contractRest_cons (e : Enc) (b : Byte) (payload : List Byte) :
    e.contractRest (b :: payload) =
      (((e.write b).1.contractRest payload).1, (e.write b).2 :: ((e.write b).1.contractRest payload).2) := rfl

theorem Enc.contract_eq (e : Enc) (payload : List Byte) :
    e.contract payload = ((e.start.1.contractRest payload).1, e.start.2 :: (e.start.1.contractRest payload).2) := rfl

/-- A sequence of ENC that stops at its first fail, with the last response it gave, agrees with the same sequence in full: it
answers ok exactly when every command does, and then leaves the same ENC. -/
def Enc.StopsAsInFull (stopping : Enc × EncRsp) (full : Enc × List EncRsp) : Prop :=
  (stopping.2 = .ok ↔ full.2.all (· == .ok) = true) ∧ (stopping.2 = .ok → stopping.1 = full.1)

/-- The two agree if the first command fails, and the stopping sequence ends with it. -/
theorem Enc.StopsAsInFull.of_fail (e e' : Enc) (rsps : List EncRsp) :
    Enc.StopsAsInFull (e, .fail) (e', .fail :: rsps) := by
  simp [Enc.StopsAsInFull]

/-- The two agree if the first command answers ok and they agree from there on. -/
theorem Enc.StopsAsInFull.of_ok {stopping : Enc × EncRsp} {full : Enc × List EncRsp}
    (h : Enc.StopsAsInFull stopping full) : Enc.StopsAsInFull stopping (full.1, .ok :: full.2) := by
  simpa [Enc.StopsAsInFull] using h

/-- After START, the stopping sequence agrees with the one in full. -/
theorem Enc.frameRest_stopsAsInFull (e : Enc) (payload : List Byte) :
    Enc.StopsAsInFull (e.frameRest payload) (e.contractRest payload) := by
  induction payload generalizing e with
  | nil => simp [Enc.StopsAsInFull, Enc.frameRest, Enc.contractRest_nil]
  | cons b rest ih =>
    rw [Enc.contractRest_cons, Enc.frameRest]
    obtain ⟨e', r⟩ := e.write b
    cases r with
    | ok => exact .of_ok (ih e')
    | fail => exact .of_fail ..

/-- Settles O29: the first command is START, and the others agree after it. -/
theorem encFrameIsTheContractSequence : Obligations.EncFrameIsTheContractSequence := by
  intro e payload
  show Enc.StopsAsInFull (e.frame payload) (e.contract payload)
  rw [Enc.contract_eq, Enc.frame]
  obtain ⟨e', r⟩ := e.start
  cases r with
  | ok => exact .of_ok (e'.frameRest_stopsAsInFull payload)
  | fail => exact .of_fail ..

end Sys2Proof.Machine
end

section
/-! PROOFS. The encoder (40_encoder.md): what an instruction's words do when presented, the commands of ENC as appends, the
contract sequence, the capacities 0 and 1, and the idle step. -/

namespace Sys2Proof

/-- The special bytes, one by one (R4). -/
theorem isSpecial_iff_eq (b : Byte) : isSpecial b = true ↔ b = 0x7D ∨ b = 0x7E ∨ b = 0x7F := by
  rw [isSpecial_iff]
  simp only [List.mem_cons, List.not_mem_nil, or_false]
  tauto

/-- The row reached for a WRITE of `b` is a WRITE of `b`. -/
theorem encWriteRow_encCmd (b : Byte) : (encWriteRow b).encCmd = some (.write b) := by
  cases hb : isSpecial b with
  | true => obtain rfl | rfl | rfl := (isSpecial_iff_eq b).1 hb <;> rfl
  | false => rw [encWriteRow_of_ordinary b hb]; rfl

end Sys2Proof

namespace Sys2Proof.Machine

/-! What presenting an instruction's words does (30_encoding.md section 5; log entries 10 and 11). -/

/-- The word of a WRITE does what any row that is a WRITE of its byte does. -/
theorem step_present_writeWord {i : Instr} {b : Byte} (hi : i.encCmd = some (.write b)) (s : State) :
    step (s.present (presentEnc (encWordOf 0b10 b))) = exec i s := by
  rw [step_presentEnc, decodeEnc_encWordOf_write, exec_of_encCmd (encWriteRow_encCmd b), exec_of_encCmd hi]

/-- The word of an RX does what any row that receives its byte does. -/
theorem step_present_rxWord {i : Instr} {b : Byte} (hi : i.rxByte = some b) (s : State) :
    step (s.present (presentDec (decWordOf 0b1 b))) = exec i s := by
  rw [step_presentDec, decodeDec_decWordOf_rx, exec_of_rxByte (decRxRow_rxByte b), exec_of_rxByte hi]

/-- One byte on the line is fed to DEC, whether it is a unit by itself or not. -/
theorem step_present_byte (x : Byte) (s : State) : step (s.present (.line [x])) = exec (.wireEOrdinary x) s := by
  cases hx : isSpecial x with
  | true => obtain rfl | rfl | rfl := (isSpecial_iff_eq x).1 hx <;> rfl
  | false => exact step_present (by rw [decode, decodeLine_ordinary hx]; rfl)

/-- What an instruction does, ill-formed terms included, is what the machine does when its words are presented. -/
theorem step_present_encode (i : Instr) (s : State) : step (s.present (encode i)) = exec i s := by
  cases i with
  | encReset data => rw [encode, step_presentEnc, decodeEnc_encWordOf_reset]
  | encStart data => rw [encode, step_presentEnc, decodeEnc_encWordOf_start]
  | encEnd data => rw [encode, step_presentEnc, decodeEnc_encWordOf_end]
  | encWriteSpecial7D | encWriteSpecial7E | encWriteSpecial7F | encWriteOrdinary | encWrite =>
    exact step_present_writeWord rfl s
  | decReset data => rw [encode, step_presentDec, decodeDec_decWordOf_reset]
  | decRxStart | decRxEnd | decRxEsc | decRxEsccode5D | decRxEsccode5E | decRxEsccode5F | decRxData | decRx =>
    exact step_present_rxWord rfl s
  | wireStart | wireEnd | wireE7D | wireE7E | wireE7F => exact step_present (decode_encode rfl)
  | wireEOrdinary x => exact step_present_byte x s

/-- Settles O6: presenting the words does not tell the two instructions apart. -/
theorem sameWordsSameEffect : Obligations.SameWordsSameEffect := by
  intro i j hwords s
  rw [← step_present_encode i, hwords, step_present_encode j]

/-! The rows of ENC, with room and without (R35, R121). -/

theorem EncCmd.storeBytes_length_pos {c : EncCmd} (hc : c ≠ .reset) : 0 < c.storeBytes.length := by
  cases c with
  | reset => exact absurd rfl hc
  | write b => rw [EncCmd.storeBytes, escapeSeq_length]; split <;> decide
  | start | finish => exact Nat.one_pos

/-- A command other than RESET whose bytes fit stores them all and answers ok. -/
theorem exec_of_room {i : Instr} {c : EncCmd} {s : State} (hi : i.encCmd = some c) (hc : c ≠ .reset)
    (hroom : c.storeBytes.length ≤ s.enc.cap - c.storeIndex s.enc) :
    ∃ t, exec i s = .next t ∧ EncStored s t (c.storeIndex s.enc) c.storeBytes := by
  refine ⟨_, exec_of_encCmd hi s, ?_⟩
  obtain ⟨hreset, -⟩ | h | ⟨hspace, -⟩ := s.enc.cmd_cases c
  · exact absurd hreset hc
  · rw [h]
    exact ⟨rfl, fun _ hk => Memory.read_writeAll_inside hk, fun _ hk => Memory.read_writeAll_of_outside hk, rfl, rfl,
      rfl, rfl⟩
  · exact absurd hroom (Nat.not_le.2 hspace)

/-- A command whose bytes do not fit answers fail and leaves ENC as it was but for the length, which a START has cleared. -/
theorem Enc.cmd_of_noSpace {e : Enc} {c : EncCmd} (hspace : e.cap - c.storeIndex e < c.storeBytes.length) :
    e.cmd c = ({ e with len := c.storeIndex e }, .fail) := by
  rw [Enc.cmd_eq]
  cases c with
  | reset => exact absurd hspace (Nat.not_lt_zero _)
  | start | write | finish => exact Enc.append_fail hspace

theorem exec_of_noSpace {i : Instr} {c : EncCmd} {s : State} (hi : i.encCmd = some c)
    (hspace : s.enc.cap - c.storeIndex s.enc < c.storeBytes.length) :
    exec i s = .next { s with enc := { s.enc with len := c.storeIndex s.enc }, rsp := [.enc .fail] } := by
  rw [exec_of_encCmd hi, Enc.cmd_of_noSpace hspace]; rfl

/-- A command that stores at the cursor appends its bytes there, or fails with nothing changed. -/
theorem encAppends_of_encCmd {i : Instr} {c : EncCmd} {s : State} (hi : i.encCmd = some c) (hc : c ≠ .reset)
    (hcursor : c.storeIndex s.enc = s.enc.len) : EncAppends i s c.storeBytes := by
  refine ⟨fun hroom => ?_, fun hspace => ?_⟩
  · rw [← hcursor] at hroom ⊢
    exact exec_of_room hi hc hroom
  · rw [exec_of_noSpace hi (hcursor ▸ hspace), hcursor]

/-- A row that is a WRITE appends the escape sequence of its byte (R72). -/
theorem encAppends_of_write {i : Instr} {b : Byte} (hi : i.encCmd = some (.write b)) (s : State) :
    EncAppends i s (escapeSeq b) :=
  encAppends_of_encCmd hi (by simp) rfl

/-- Settles O22: START stores its one byte at index 0, which a capacity of 0 has no room for. -/
theorem encStartBeginsAFrame : Obligations.EncStartBeginsAFrame := by
  refine fun data s => ⟨fun hcap => ?_, fun hcap => ?_, rfl⟩
  · exact exec_of_room (c := .start) rfl (by simp) hcap
  · exact exec_of_noSpace (c := .start) rfl (by rw [hcap]; exact Nat.one_pos)

/-- Settles O23: WRITE appends the escape sequence, which is the escape pair exactly for a special byte. -/
theorem encWriteAppendsTheEscapedByte : Obligations.EncWriteAppendsTheEscapedByte := by
  intro b s
  have happends : EncAppends (.encWrite b) s (escapeSeq b) := encAppends_of_write rfl s
  refine ⟨isSpecial_iff_eq b, fun hb => ?_, fun hb => ?_, rfl⟩
  · rw [escapeSeq_of_special hb, maskByte, BitVec.xor_comm] at happends
    exact happends
  · rwa [escapeSeq_of_ordinary hb] at happends

/-- Settles O24: the pairs are the escape sequences of the three special bytes. -/
theorem encWriteSpecialAppendsTheEscapePair : Obligations.EncWriteSpecialAppendsTheEscapePair :=
  fun s => ⟨encAppends_of_write (b := 0x7D) rfl s, encAppends_of_write (b := 0x7E) rfl s,
    encAppends_of_write (b := 0x7F) rfl s⟩

/-- Settles O25: a byte that is none of the three special ones is its own escape sequence. -/
theorem encWriteOrdinaryAppendsTheByte : Obligations.EncWriteOrdinaryAppendsTheByte := by
  intro b s h7D h7E h7F
  have hb : isSpecial b = false := Bool.eq_false_iff.2 fun h => by
    obtain h | h | h := (isSpecial_iff_eq b).1 h <;> contradiction
  rw [← escapeSeq_of_ordinary hb]
  exact encAppends_of_write rfl s

/-- Settles O21: RESET is the clear, answered ok. -/
theorem encResetZeroesTheLength : Obligations.EncResetZeroesTheLength :=
  fun data s => exec_of_encCmd (i := .encReset data) (c := .reset) rfl s

/-! What the buffer reads as after an append (R31, R38). -/

/-- The bytes that ENC holds, index by index. -/
theorem Enc.holds_iff {e : Enc} {bytes : List Byte} :
    e.holds bytes ↔ e.len = bytes.length ∧ ∀ k (hk : k < bytes.length), e.readPort k = .byte bytes[k] := by
  refine and_congr_right fun hlen => ?_
  rw [hlen, Enc.contents, List.ext_getElem_iff]
  simp

/-- After START has cleared the length, ENC holds nothing. -/
theorem Enc.clear_holds (e : Enc) : e.clear.holds [] := ⟨rfl, rfl⟩

/-- An append that fits adds its bytes after those that ENC held. -/
theorem Enc.append_holds {e : Enc} {bytes more : List Byte} (hold : e.holds bytes)
    (hroom : e.len + more.length ≤ e.cap) : (e.append more).1.holds (bytes ++ more) := by
  obtain ⟨hlen, hread⟩ := Enc.holds_iff.1 hold
  rw [Enc.append_ok (by omega), Enc.holds_iff]
  refine ⟨by simp [hlen], fun k hk => ?_⟩
  rw [List.length_append] at hk
  by_cases hbefore : k < bytes.length
  · rw [List.getElem_append_left hbefore, ← hread k hbefore]
    simp only [Enc.readPort]
    rw [Memory.read_writeAll_of_outside (.inl (by omega))]
  · obtain ⟨j, rfl⟩ := Nat.exists_eq_add_of_le (Nat.not_lt.1 hbefore)
    have hj : j < more.length := by omega
    have hcap : bytes.length + j < e.cap := by omega
    simp only [Enc.readPort]
    rw [if_pos hcap, hlen, Memory.read_writeAll_inside hj]
    simp [hj]

/-- Settles O26: END appends its byte, and the frame is what was held and that byte. -/
theorem encEndAppendsEnd : Obligations.EncEndAppendsEnd := by
  refine fun data s => ⟨encAppends_of_encCmd (c := .finish) rfl (by simp) rfl, fun payload t hold hroom ht => ?_, rfl⟩
  rw [exec_of_encCmd (c := .finish) rfl] at ht
  cases ht
  exact Enc.append_holds hold hroom

/-! The contract sequence (R77, R79): one append after another. -/

/-- Appends in order, with the response of each. -/
def Enc.appends (e : Enc) : List (List Byte) → Enc × List EncRsp
  | [] => (e, [])
  | piece :: rest =>
    (((e.append piece).1.appends rest).1, (e.append piece).2 :: ((e.append piece).1.appends rest).2)

/-- What each command of the contract sequence appends: START, the escape sequences of the payload, END. -/
def framePieces (payload : List Byte) : List (List Byte) :=
  [Config.startByte] :: (payload.map escapeSeq ++ [[Config.endByte]])

theorem framePieces_flatten (payload : List Byte) : (framePieces payload).flatten = frameOf payload := by
  simp [framePieces, frameOf, List.flatMap_def]

theorem framePieces_map_length (payload : List Byte) :
    (framePieces payload).map List.length = frameSizes payload := by
  simp [framePieces, frameSizes, Function.comp_def]

theorem framePieces_length (payload : List Byte) : (framePieces payload).length = payload.length + 2 := by
  simp [framePieces]

/-- The commands after START are appends of the escape sequences and of END. -/
theorem execAll_writes_end (s : State) (payload : List Byte) :
    ∃ t, execAll s (payload.map .encWrite ++ [.encEnd 0]) =
        some (t, (s.enc.appends (payload.map escapeSeq ++ [[Config.endByte]])).2.map .enc) ∧
      t.enc = (s.enc.appends (payload.map escapeSeq ++ [[Config.endByte]])).1 ∧ t.dec = s.dec := by
  induction payload generalizing s with
  | nil => exact ⟨s.putEnc s.enc.finish, rfl, rfl, rfl⟩
  | cons b rest ih =>
    obtain ⟨t, hrun, henc, hdec⟩ := ih (s.putEnc (s.enc.append (escapeSeq b)))
    refine ⟨t, ?_, henc, hdec⟩
    rw [List.map_cons, List.cons_append, execAll, exec_of_encCmd (c := .write b) rfl, Enc.cmd_eq]
    dsimp only
    rw [hrun]
    rfl

/-- The contract sequence is the appends of its pieces, from length 0. -/
theorem execAll_frameInstrs (s : State) (payload : List Byte) :
    ∃ t, execAll s (frameInstrs payload) =
        some (t, (s.enc.clear.appends (framePieces payload)).2.map .enc) ∧
      t.enc = (s.enc.clear.appends (framePieces payload)).1 ∧ t.dec = s.dec := by
  obtain ⟨t, hrun, henc, hdec⟩ := execAll_writes_end (s.putEnc s.enc.start) payload
  refine ⟨t, ?_, henc, hdec⟩
  rw [frameInstrs, execAll, exec_of_encCmd (c := .start) rfl]
  show (execAll (s.putEnc s.enc.start) _).map _ = _
  rw [hrun]
  rfl

/-- Appends that all fit are all answered ok, and add their bytes after those that ENC held. -/
theorem Enc.appends_of_room {e : Enc} {bytes : List Byte} {pieces : List (List Byte)} (hold : e.holds bytes)
    (hroom : e.len + pieces.flatten.length ≤ e.cap) :
    (e.appends pieces).2 = List.replicate pieces.length .ok ∧
      (e.appends pieces).1.holds (bytes ++ pieces.flatten) := by
  induction pieces generalizing e bytes with
  | nil => exact ⟨rfl, by simpa [Enc.appends] using hold⟩
  | cons piece rest ih =>
    rw [List.flatten_cons, List.length_append] at hroom
    have hfirst := Enc.append_holds hold (more := piece) (by omega)
    have happend := Enc.append_ok (e := e) (bytes := piece) (by omega)
    rw [Enc.appends]
    rw [happend] at hfirst ⊢
    obtain ⟨hrsp, hholds⟩ := ih hfirst (by dsimp only; omega)
    exact ⟨by rw [hrsp]; rfl, by rwa [List.append_assoc] at hholds⟩

/-- An append before which all others fit is answered ok exactly if it fits after them. -/
theorem Enc.appends_rsp {e : Enc} {pieces : List (List Byte)} {k : Nat} (hk : k < pieces.length)
    (hbefore : e.len + ((pieces.map List.length).take k).sum ≤ e.cap) :
    (e.appends pieces).2[k]? =
      some (if e.len + ((pieces.map List.length).take (k + 1)).sum ≤ e.cap then .ok else .fail) := by
  induction pieces generalizing e k with
  | nil => exact absurd hk (Nat.not_lt_zero k)
  | cons piece rest ih =>
    rw [List.map_cons, List.take_succ_cons, List.sum_cons, Enc.appends]
    cases k with
    | zero =>
      have hlen : e.len ≤ e.cap := hbefore
      rw [List.take_zero, List.sum_nil]
      obtain ⟨hroom, h⟩ | ⟨hspace, h⟩ := e.append_cases piece <;> rw [h]
      · rw [if_pos (by omega)]; rfl
      · rw [if_neg (by omega)]; rfl
    | succ k =>
      rw [List.map_cons, List.take_succ_cons, List.sum_cons, ← Nat.add_assoc] at hbefore
      rw [Enc.append_ok (by omega), ← Nat.add_assoc]
      exact ih (Nat.lt_of_succ_lt_succ hk) hbefore

/-- In the contract sequence, a command before which all others fit answers ok exactly if its own bytes fit after theirs. -/
theorem Enc.clear_appends_framePieces_rsp {e : Enc} {payload : List Byte} {k : Nat} (hk : k < payload.length + 2)
    (hbefore : ((frameSizes payload).take k).sum ≤ e.cap) :
    (e.clear.appends (framePieces payload)).2[k]? =
      some (if ((frameSizes payload).take (k + 1)).sum ≤ e.cap then .ok else .fail) := by
  rw [← framePieces_map_length] at hbefore ⊢
  simpa using Enc.appends_rsp (e := e.clear) (by rwa [framePieces_length]) (by simpa using hbefore)

/-- Settles O28: the sequence is appends, whose bytes together are the frame. -/
theorem contractSequenceBuildsTheFrame : Obligations.ContractSequenceBuildsTheFrame := by
  intro payload s
  obtain ⟨t, hrun, henc, hdec⟩ := execAll_frameInstrs s payload
  refine ⟨t, _, hrun, hdec, fun hcap => ?_, fun k hk hroom => ?_, fun k hk hbefore hspace => ?_⟩
  · have hfits : s.enc.clear.len + (framePieces payload).flatten.length ≤ s.enc.clear.cap := by
      rwa [framePieces_flatten, (frameLengthCountsSpecialBytesTwice payload).1, Enc.clear_len, Nat.zero_add]
    obtain ⟨hrsp, hholds⟩ := Enc.appends_of_room s.enc.clear_holds hfits
    rw [hrsp, henc, ← framePieces_flatten, ← framePieces_length, List.map_replicate]
    exact ⟨rfl, hholds⟩
  · have hbefore : ((frameSizes payload).take k).sum ≤ s.enc.cap :=
      ((List.take_sublist_take_left k.le_succ).sum_le_sum fun _ _ => Nat.zero_le _).trans hroom
    rw [List.getElem?_map, Enc.clear_appends_framePieces_rsp hk hbefore, if_pos hroom]; rfl
  · rw [List.getElem?_map, Enc.clear_appends_framePieces_rsp hk hbefore, if_neg (Nat.not_le.2 hspace)]; rfl

/-! Capacities 0 and 1. -/

/-- A command that lacks room, where the length is within the capacity, answers fail and changes nothing (R121). -/
theorem exec_of_noSpace_unchanged {i : Instr} {c : EncCmd} {s : State} (hi : i.encCmd = some c)
    (hlen : s.enc.len ≤ s.enc.cap) (hspace : s.enc.cap - c.storeIndex s.enc < c.storeBytes.length) :
    exec i s = .next { s with rsp := [.enc .fail] } := by
  rw [exec_of_noSpace hi hspace, EncCmd.storeIndex_of_noSpace hlen hspace]

/-- A command other than START stores at the cursor. -/
theorem EncCmd.storeIndex_of_ne_start {c : EncCmd} (hc : c ≠ .start) (e : Enc) : c.storeIndex e = e.len := by
  cases c with
  | start => exact absurd rfl hc
  | reset | write | finish => rfl

/-- Settles O30: every command but RESET stores at least one byte, and START exactly one. -/
theorem capacityZeroAndOne : Obligations.CapacityZeroAndOne := by
  intro i c s hi hreset
  have hbytes := EncCmd.storeBytes_length_pos hreset
  refine ⟨fun hcap hlen => ?_, fun hcap hstart => ?_, fun hcap hlen hstart => ?_⟩
  · exact exec_of_noSpace_unchanged hi (by omega) (by omega)
  · subst hstart
    refine ⟨_, exec_of_encCmd hi s, Enc.append_holds s.enc.clear_holds hcap.ge, ?_⟩
    rw [State.putEnc_rsp, Enc.cmd, Enc.start, Enc.append_ok (e := s.enc.clear) (bytes := [Config.startByte]) hcap.ge]
  · have hcursor := EncCmd.storeIndex_of_ne_start hstart s.enc
    exact exec_of_noSpace_unchanged hi (by omega) (by omega)

/-! No command presented (R76, R99). -/

/-- A step that fetches no action takes away what it fetched, gives no response and changes nothing else. -/
theorem step_of_fetch_idle {s : State} {rest : List Input} (h : fetch s.inputs = (.idle, rest)) :
    step s = .next (s.withInputs rest).idle := by
  rw [step, h]; rfl

/-- Settles O49: `cmd_valid = 0`, or nothing at all, is fetched as idle. -/
theorem idleChangesNothing : Obligations.IdleChangesNothing := by
  refine fun s => ⟨step_of_fetch_idle rfl, step_of_fetch_idle rfl, fun hs => ?_⟩
  rw [step_of_fetch_idle (rest := s.inputs) (by rw [hs]; rfl)]
  rfl

end Sys2Proof.Machine
end

section
/-! PROOFS. The decoder (41_decoder.md): the transitions T1 to T7, the response to each received byte, and what becomes of a
whole frame, from every state. -/

namespace Sys2Proof

/-! The bytes told apart (R4, R54). -/

theorem isSpecial_eq_false_of_ne {b : Byte} (h7F : b ≠ 0x7F) (h7D : b ≠ 0x7D) (h7E : b ≠ 0x7E) :
    isSpecial b = false :=
  Bool.eq_false_iff.2 fun h => by
    obtain h | h | h := (isSpecial_iff_eq b).1 h <;> contradiction

theorem ne_of_ordinary_of_special {b c : Byte} (hb : isSpecial b = false) (hc : isSpecial c = true) : b ≠ c :=
  fun h => absurd (h ▸ hc) (by simp [hb])

/-- The escape codes, one by one (R53). -/
theorem isSpecial_maskByte_iff_eq (b : Byte) : isSpecial (maskByte b) = true ↔ b = 0x5D ∨ b = 0x5E ∨ b = 0x5F := by
  rw [isSpecial_maskByte_iff]
  simp only [List.mem_cons, List.not_mem_nil, or_false]

theorem classify_of_ordinary : ∀ b : Byte, isSpecial b = false → classify b = .escCode ∨ classify b = .data := by
  decide

theorem classify_of_escapeCode : ∀ b : Byte, isSpecial (maskByte b) = true → classify b = .escCode := by
  decide

theorem classify_of_not_escapeCode : ∀ b : Byte, b ≠ Config.startByte → isSpecial (maskByte b) = false →
    classify b = .endd ∨ classify b = .esc ∨ classify b = .data := by
  decide

/-- START stands nowhere inside an escape sequence (R53). -/
theorem startByte_notMem_escapeSeq (x : Byte) : Config.startByte ∉ escapeSeq x := by
  cases hx : isSpecial x with
  | true =>
    rw [escapeSeq_of_special hx]
    simpa [show Config.startByte ≠ Config.escapeByte by decide] using (maskByte_ne_start_of_isSpecial x hx).symm
  | false =>
    rw [escapeSeq_of_ordinary hx, List.mem_singleton]
    exact (ne_of_ordinary_of_special hx rfl).symm

/-- After its first byte, a frame has no START (R50). -/
theorem startByte_notMem_frame_tail (payload : List Byte) :
    Config.startByte ∉ payload.flatMap escapeSeq ++ [Config.endByte] := by
  rw [List.mem_append, List.mem_flatMap, List.mem_singleton]
  rintro (⟨x, -, hx⟩ | h)
  · exact startByte_notMem_escapeSeq x hx
  · exact absurd h (by decide)

/-- What stands in a frame after the escape sequences of its first `n` payload bytes. -/
theorem frameOf_length_sub (payload : List Byte) (n : Nat) :
    (frameOf payload).length - ((payload.take n).flatMap escapeSeq).length - 1 =
      ((payload.drop n).flatMap escapeSeq ++ [Config.endByte]).length := by
  have hlength : (payload.flatMap escapeSeq).length =
      ((payload.take n).flatMap escapeSeq).length + ((payload.drop n).flatMap escapeSeq).length := by
    rw [← List.length_append, ← List.flatMap_append, List.take_append_drop]
  simp only [frameOf, List.length_cons, List.length_append, List.length_nil]
  omega

end Sys2Proof

namespace Sys2Proof.Machine

/-! What START leaves, field by field (R92). -/

@[simp] theorem Dec.resync_rsp (d : Dec) : d.resync.2 = .pending := rfl
@[simp] theorem Dec.resync_cap (d : Dec) : d.resync.1.cap = d.cap := rfl
@[simp] theorem Dec.resync_len (d : Dec) : d.resync.1.len = 0 := rfl
@[simp] theorem Dec.resync_st (d : Dec) : d.resync.1.st = .inMessage := rfl

/-! The transitions (R92 to R98). What START, ESCAPE, END and a byte with room do stands with the wire rows above. -/

/-- Outside a message, a byte other than START is discarded (R93, R98). -/
theorem Dec.rx_discard {d : Dec} {b : Byte} (hd : d.st = .awaitingStart ∨ d.st = .error)
    (hb : b ≠ Config.startByte) : d.rx b = (d, .pending) := by
  rcases hd with hd | hd <;> simp [Dec.rx, hb, hd, Dec.discard]

/-- An ordinary byte in InMessage overflows where there is no room (R96). -/
theorem Dec.rx_ordinary_full {d : Dec} {x : Byte} (hst : d.st = .inMessage) (hfull : d.cap ≤ d.len)
    (hx : isSpecial x = false) : d.rx x = ({ d with st := .error }, .error) := by
  have hrem : ¬ 0 < d.rem := Nat.not_lt.2 (Nat.sub_eq_zero_of_le hfull).le
  simp only [isSpecial, Bool.or_eq_false_iff] at hx
  obtain ⟨⟨hstart, hend⟩, hesc⟩ := hx
  simp [Dec.rx, hst, hstart, hend, hesc, Dec.payloadByte, hrem, Dec.raise]

/-- An escape code in InEscape stores the byte it stands for where there is room (R97). -/
theorem Dec.rx_escapeCode {d : Dec} {b : Byte} (hst : d.st = .inEscape) (hroom : d.len < d.cap)
    (hb : isSpecial (maskByte b) = true) : d.rx b = ({ d.store (maskByte b) with st := .inMessage }, .pending) := by
  simpa using Dec.rx_maskByte hst hroom hb

/-- An escape code in InEscape overflows where there is no room (R97). -/
theorem Dec.rx_escapeCode_full {d : Dec} {b : Byte} (hst : d.st = .inEscape) (hfull : d.cap ≤ d.len)
    (hb : isSpecial (maskByte b) = true) : d.rx b = ({ d with st := .error }, .error) := by
  have hrem : ¬ 0 < d.rem := Nat.not_lt.2 (Nat.sub_eq_zero_of_le hfull).le
  have hstart : b ≠ Config.startByte := by simpa using maskByte_ne_start_of_isSpecial _ hb
  simp [Dec.rx, hst, hstart, Dec.escapedByte, hb, hrem, Dec.raise]

/-! The conditions of R122 and R123, state by state. -/

theorem Dec.cause_of_startByte (d : Dec) : d.cause Config.startByte = none := by
  rw [Dec.cause]
  cases d.st <;> rfl

theorem Dec.cause_of_escapeByte {d : Dec} (hst : d.st = .inMessage) : d.cause Config.escapeByte = none := by
  rw [Dec.cause, hst]; rfl

theorem Dec.cause_of_endByte {d : Dec} (hst : d.st = .inMessage) : d.cause Config.endByte = none := by
  rw [Dec.cause, hst]; rfl

theorem Dec.cause_of_discard {d : Dec} (hd : d.st = .awaitingStart ∨ d.st = .error) (b : Byte) :
    d.cause b = none := by
  obtain hst | hst := hd <;> simp [Dec.cause, hst]

theorem Dec.cause_of_ordinary {d : Dec} {b : Byte} (hst : d.st = .inMessage) (hb : isSpecial b = false) :
    d.cause b = if d.len < d.cap then none else some .decOverflow := by
  obtain hclass | hclass := classify_of_ordinary b hb <;> simp [Dec.cause, hst, hclass]

theorem Dec.cause_of_escapeCode {d : Dec} {b : Byte} (hst : d.st = .inEscape) (hb : isSpecial (maskByte b) = true) :
    d.cause b = if d.len < d.cap then none else some .decOverflow := by
  simp [Dec.cause, hst, classify_of_escapeCode b hb]

theorem Dec.cause_of_badEscape {d : Dec} {b : Byte} (hst : d.st = .inEscape) (hstart : b ≠ Config.startByte)
    (hb : isSpecial (maskByte b) = false) : d.cause b = some .decBadEscape := by
  obtain hclass | hclass | hclass := classify_of_not_escapeCode b hstart hb <;> simp [Dec.cause, hst, hclass]

/-! The rows. -/

/-- An RX row gives DEC the state, and answers the response, of the decode step on its byte. -/
theorem exec_of_rx {i : Instr} {b : Byte} {s : State} {r : Dec × DecRsp} (hi : i.rxByte = some b)
    (h : s.dec.rx b = r) : exec i s = .next (s.putDec r) :=
  h ▸ exec_of_rxByte hi s

/-- A payload byte stored at the cursor, on the way to InMessage. -/
theorem decStored_store (s : State) (x : Byte) :
    DecStored s (s.putDec ({ s.dec.store x with st := .inMessage }, .pending)) x [.dec .pending] :=
  ⟨rfl, rfl, Memory.read_write_self .., fun _ hk => Memory.read_write_of_ne hk, rfl, rfl, rfl, rfl⟩

/-- Settles O31: RESET is the clear, answered pending. -/
theorem decResetReturnsToAwaitingStart : Obligations.DecResetReturnsToAwaitingStart :=
  fun _ _ => rfl

/-- Settles O32: transition T1. -/
theorem startByteResynchronises : Obligations.StartByteResynchronises :=
  fun _ s hi => exec_of_rx hi s.dec.rx_startByte

/-- Settles O33: transitions T2 and T7. -/
theorem otherBytesAreDiscardedOutsideAMessage : Obligations.OtherBytesAreDiscardedOutsideAMessage :=
  fun _ _ _ hi hb hst => exec_of_rx hi (Dec.rx_discard hst hb)

/-- Settles O34: transition T3. -/
theorem escapeByteOpensAnEscape : Obligations.EscapeByteOpensAnEscape :=
  fun _ _ hi hst => exec_of_rx hi (Dec.rx_escapeByte hst)

/-- Settles O35: transition T4. -/
theorem endByteCompletesTheMessage : Obligations.EndByteCompletesTheMessage :=
  fun _ _ hi hst => exec_of_rx hi (Dec.rx_endByte hst)

/-- Settles O36: transition T5, with room and without. -/
theorem payloadByteIsStoredOrOverflows : Obligations.PayloadByteIsStoredOrOverflows := by
  intro i b s hi h7F h7D h7E hst
  have hb : isSpecial b = false := isSpecial_eq_false_of_ne h7F h7D h7E
  refine ⟨fun hroom => ⟨_, exec_of_rx hi (Dec.rx_ordinary hst hroom hb), ?_⟩, fun hfull => ⟨?_, ?_⟩⟩
  · have hstored := decStored_store s b
    rwa [← hst] at hstored
  · exact exec_of_rx hi (Dec.rx_ordinary_full hst hfull hb)
  · rw [Dec.cause_of_ordinary hst hb, if_neg (Nat.not_lt.2 hfull)]

/-- Settles O37: transition T6. `b ^^^ 0x20` is the unmasked byte, whose escape code is `b`. -/
theorem escapedByteIsStoredOrAnError : Obligations.EscapedByteIsStoredOrAnError := by
  intro i b s hi h7F hst
  refine ⟨isSpecial_maskByte_iff_eq b,
    fun hb hroom => ⟨_, exec_of_rx hi (Dec.rx_escapeCode hst hroom hb), decStored_store s (maskByte b)⟩,
    fun hb => ⟨?_, Dec.cause_of_badEscape hst h7F hb⟩, fun hb hfull => ⟨?_, ?_⟩⟩
  · exact exec_of_rx hi (Dec.rx_badEscape hst h7F hb)
  · exact exec_of_rx hi (Dec.rx_escapeCode_full hst hfull hb)
  · rw [Dec.cause_of_escapeCode hst hb, if_neg (Nat.not_lt.2 hfull)]

/-! The response to a received byte (R100). -/

/-- `complete(n)` is the response to END in InMessage, with the length, and to nothing else. -/
theorem Dec.rx_complete_iff {d : Dec} {b : Byte} {n : Nat} :
    (d.rx b).2 = .complete n ↔ d.st = .inMessage ∧ b = Config.endByte ∧ n = d.len := by
  obtain ⟨hb, h⟩ | ⟨-, hst, h⟩ | ⟨hb, -, h⟩ | ⟨hb, hst, h⟩ | ⟨hb, -, -, h⟩ | ⟨hb, -, -, h⟩ | ⟨-, -, hst, -, h⟩ |
    ⟨-, -, hst, h⟩ := d.rx_cases b <;> rw [h]
  · subst hb
    simp [show Config.startByte ≠ Config.endByte by decide]
  · obtain hst | hst := hst <;> simp [hst]
  · subst hb
    simp [show Config.escapeByte ≠ Config.endByte by decide]
  · simp [hb, hst, eq_comm]
  · simp [ne_of_ordinary_of_special hb (c := Config.endByte) rfl]
  · simp [ne_of_ordinary_of_special hb (c := Config.endByte) rfl]
  · simp [hst]
  · simp [hst]

/-- `error` is the response exactly where a condition of R122 or R123 is met. -/
theorem Dec.rx_error_iff {d : Dec} {b : Byte} : (d.rx b).2 = .error ↔ d.cause b ≠ none := by
  obtain ⟨hb, h⟩ | ⟨-, hst, h⟩ | ⟨hb, hst, h⟩ | ⟨hb, hst, h⟩ | ⟨hb, hst, hroom, h⟩ | ⟨hb, hst, hfull, h⟩ |
    ⟨-, hb, hst, hroom, h⟩ | ⟨hstart, hbad, hst, h⟩ := d.rx_cases b <;> rw [h]
  · simp [hb, Dec.cause_of_startByte]
  · simp [Dec.cause_of_discard hst]
  · simp [hb, Dec.cause_of_escapeByte hst]
  · simp [hb, Dec.cause_of_endByte hst]
  · simp [Dec.cause_of_ordinary hst hb, hroom]
  · simp [Dec.cause_of_ordinary hst hb, hfull]
  · simp [Dec.cause_of_escapeCode hst hb, hroom]
  · cases hb : isSpecial (maskByte b) with
    | false => simp [Dec.cause_of_badEscape hst hstart hb]
    | true =>
      have hfull : d.cap ≤ d.len := hbad.resolve_left (by simp [hb])
      simp [Dec.cause_of_escapeCode hst hb, hfull]

/-- Settles O38: the response is that of the decode step. -/
theorem eachReceivedByteHasOneResponse : Obligations.EachReceivedByteHasOneResponse :=
  fun _ _ s hi => ⟨_, _, exec_of_rxByte hi s, rfl, fun _ => Dec.rx_complete_iff, Dec.rx_error_iff⟩

/-! What DEC's buffer reads as while payload bytes are stored (R31, R38). -/

/-- The bytes that DEC holds, index by index. -/
theorem Dec.holds_iff {d : Dec} {bytes : List Byte} :
    d.holds bytes ↔ d.len = bytes.length ∧ ∀ k (hk : k < bytes.length), d.readPort k = .byte bytes[k] := by
  refine and_congr_right fun hlen => ?_
  rw [hlen, Dec.contents, List.ext_getElem_iff]
  simp

/-- After START has cleared the length, DEC holds nothing. -/
theorem Dec.resync_holds (d : Dec) : d.resync.1.holds [] := ⟨rfl, rfl⟩

/-- A payload byte stored where there is room comes after the bytes that DEC held. -/
theorem Dec.store_holds {d : Dec} {bytes : List Byte} (hold : d.holds bytes) (hroom : d.len < d.cap) (x : Byte) :
    (d.store x).holds (bytes ++ [x]) := by
  obtain ⟨hlen, hread⟩ := Dec.holds_iff.1 hold
  refine Dec.holds_iff.2 ⟨by simp [hlen], fun k hk => ?_⟩
  rw [List.length_append, List.length_singleton] at hk
  by_cases hbefore : k < bytes.length
  · rw [List.getElem_append_left hbefore, ← hread k hbefore, Dec.readPort, Dec.readPort, Dec.store_buf,
      Memory.read_write_of_ne (by omega), Dec.store_cap]
  · obtain rfl : k = bytes.length := by omega
    simp [Dec.readPort, ← hlen, hroom]

/-! A frame, fed byte by byte (R43, R50). -/

/-- An escaped payload that fits, fed in InMessage, is answered pending throughout, and adds its bytes after those that DEC
held. -/
theorem Dec.feed_payload {d : Dec} {bytes payload : List Byte} (hst : d.st = .inMessage) (hold : d.holds bytes)
    (hroom : d.len + payload.length ≤ d.cap) :
    (d.feed (payload.flatMap escapeSeq)).2 = List.replicate (payload.flatMap escapeSeq).length .pending ∧
      (d.feed (payload.flatMap escapeSeq)).1.st = .inMessage ∧
      (d.feed (payload.flatMap escapeSeq)).1.holds (bytes ++ payload) := by
  induction payload generalizing d bytes with
  | nil => exact ⟨rfl, hst, by simpa using hold⟩
  | cons x rest ih =>
    rw [List.length_cons] at hroom
    have hfirst : d.len < d.cap := by omega
    obtain ⟨hrsp, hst', hholds⟩ := ih (d := d.store x) hst (Dec.store_holds hold hfirst x)
      (by rw [Dec.store_len, Dec.store_cap]; omega)
    rw [List.flatMap_cons, Dec.feed_append, Dec.feed_escapeSeq hst hfirst, List.length_append]
    exact ⟨by rw [hrsp, List.replicate_append_replicate], hst', by simpa using hholds⟩

/-- A frame that fits is delivered whole, from every state of DEC. -/
theorem Dec.feed_frameOf {d : Dec} {payload : List Byte} (hroom : payload.length ≤ d.cap) :
    (d.feed (frameOf payload)).2 =
        List.replicate ((frameOf payload).length - 1) .pending ++ [.complete payload.length] ∧
      (d.feed (frameOf payload)).1.st = .awaitingStart ∧ (d.feed (frameOf payload)).1.holds payload := by
  obtain ⟨hrsp, hst, hholds⟩ := Dec.feed_payload (d := d.resync.1) (payload := payload) d.resync_st d.resync_holds
    (by simpa using hroom)
  rw [List.nil_append] at hholds
  have hlen := hholds.1
  rw [frameOf, Dec.feed_cons, Dec.rx_startByte, Dec.feed_append, Dec.feed_cons, Dec.rx_endByte hst, hrsp]
  exact ⟨by simp [List.replicate_succ, hlen], rfl, hholds⟩

/-- The escape sequence of a payload byte in InMessage overflows where there is no room, at its last byte (R96, R97). -/
theorem Dec.feed_escapeSeq_full {d : Dec} (hst : d.st = .inMessage) (hfull : d.cap ≤ d.len) (x : Byte) :
    d.feed (escapeSeq x) =
      ({ d with st := .error }, List.replicate ((escapeSeq x).length - 1) .pending ++ [.error]) := by
  cases hx : isSpecial x with
  | false => simp [escapeSeq_of_ordinary hx, Dec.rx_ordinary_full hst hfull hx]
  | true =>
    rw [escapeSeq_of_special hx, Dec.feed_cons, Dec.rx_escapeByte hst, Dec.feed_cons,
      Dec.rx_escapeCode_full (d := { d with st := .inEscape }) rfl hfull (by simpa using hx)]
    rfl

/-- A frame whose payload goes on past the capacity with `x` is answered error once, at the last byte of the unit of `x`; DEC
keeps what came before `x` and discards what comes after it. -/
theorem Dec.feed_frameOf_overflow {d : Dec} {before after : List Byte} (x : Byte) (hfull : before.length = d.cap) :
    (d.feed (frameOf (before ++ x :: after))).2 =
        List.replicate ((before ++ [x]).flatMap escapeSeq).length .pending ++ [.error] ++
          List.replicate (after.flatMap escapeSeq ++ [Config.endByte]).length .pending ∧
      (d.feed (frameOf (before ++ x :: after))).1.st = .error ∧
      (d.feed (frameOf (before ++ x :: after))).1.holds before := by
  have hbytes : frameOf (before ++ x :: after) = Config.startByte :: (before.flatMap escapeSeq ++
      (escapeSeq x ++ (after.flatMap escapeSeq ++ [Config.endByte]))) := by simp [frameOf]
  obtain ⟨hrsp, hst, hholds⟩ := Dec.feed_payload (d := d.resync.1) (payload := before) d.resync_st d.resync_holds
    (by simpa using hfull.le)
  rw [List.nil_append] at hholds
  have hlen := hholds.1
  have hnoRoom := Dec.feed_escapeSeq_full hst (by rw [hlen, Dec.feed_cap, Dec.resync_cap, hfull]) x
  rw [hbytes, Dec.feed_cons, Dec.rx_startByte, Dec.feed_append, Dec.feed_append, hnoRoom,
    Dec.feed_discard (.inr rfl) (startByte_notMem_frame_tail after), hrsp]
  refine ⟨?_, rfl, hholds⟩
  have hpos : (escapeSeq x).length = (escapeSeq x).length - 1 + 1 := by rw [escapeSeq_length]; split <;> rfl
  have hcount : ((before ++ [x]).flatMap escapeSeq).length =
      (before.flatMap escapeSeq).length + ((escapeSeq x).length - 1) + 1 := by
    rw [List.flatMap_append, List.length_append, List.flatMap_singleton]; omega
  simp only [hcount, List.replicate_succ, ← List.replicate_append_replicate, Dec.resync_rsp, List.cons_append,
    List.append_assoc, List.nil_append]

/-- Settles O40: the payload is split at the capacity if it does not fit. -/
theorem frameIsAcceptedFromEveryState : Obligations.FrameIsAcceptedFromEveryState := by
  intro payload s
  obtain ⟨t, hrun, hdec, henc, -⟩ := execAll_feedInstrs s (frameOf payload)
  refine ⟨t, _, hrun, henc, fun hroom => ?_, fun hfull => ?_⟩
  · obtain ⟨hrsp, hdelivered⟩ := Dec.feed_frameOf hroom
    rw [hrsp, hdec]
    exact ⟨by simp, hdelivered⟩
  · have hsplit : payload = payload.take s.dec.cap ++ payload[s.dec.cap] :: payload.drop (s.dec.cap + 1) := by
      rw [List.getElem_cons_drop, List.take_append_drop]
    obtain ⟨hrsp, herror⟩ := Dec.feed_frameOf_overflow (d := s.dec) (before := payload.take s.dec.cap)
      (after := payload.drop (s.dec.cap + 1)) payload[s.dec.cap] (by simp [hfull.le])
    rw [← hsplit] at hrsp herror
    rw [List.take_append_getElem] at hrsp
    rw [frameOf_length_sub, hrsp, hdec]
    exact ⟨by simp, herror⟩

/-- Settles O42: the three bytes are the frame of [0x41], which the noise before it leaves room for. -/
theorem resynchronisationAfterAnyBytes : Obligations.ResynchronisationAfterAnyBytes := by
  intro noise s hcap
  rw [show ([0x7F, 0x41, 0x7E] : List Byte) = frameOf [0x41] from rfl]
  obtain ⟨t, hrun, hdec, -⟩ := execAll_feedInstrs s (noise ++ frameOf [0x41])
  obtain ⟨hrsp, hst, hholds⟩ := Dec.feed_frameOf (d := (s.dec.feed noise).1) (payload := [0x41])
    (by rwa [Dec.feed_cap])
  rw [Dec.feed_append] at hrun hdec
  refine ⟨t, _, hrun, ?_, hdec ▸ hholds, hdec ▸ hst⟩
  rw [hrsp]
  simp

end Sys2Proof.Machine
end

section
/-! PROOFS. The error conditions (60_exceptions.md): when a command of ENC or a received byte meets one and what it then does,
how DEC leaves Error, and that the two blocks do not interfere. -/

namespace Sys2Proof

/-! What a step can fetch. -/

theorem decodeEnc_encCmd (w : EncWord) : ∃ c, (decodeEnc w).encCmd = some c := by
  obtain ⟨op, data, rfl⟩ := exists_eq_encWordOf w
  obtain rfl | rfl | rfl | rfl := encOp_cases op
  · exact ⟨_, congrArg Instr.encCmd (decodeEnc_encWordOf_reset data)⟩
  · exact ⟨_, congrArg Instr.encCmd (decodeEnc_encWordOf_start data)⟩
  · exact ⟨_, (congrArg Instr.encCmd (decodeEnc_encWordOf_write data)).trans (encWriteRow_encCmd data)⟩
  · exact ⟨_, congrArg Instr.encCmd (decodeEnc_encWordOf_end data)⟩

theorem decodeDec_cases (w : DecWord) : (∃ data, decodeDec w = .decReset data) ∨ ∃ b, decodeDec w = decRxRow b := by
  obtain ⟨op, data, rfl⟩ := exists_eq_decWordOf w
  obtain rfl | rfl := decOp_cases op
  · exact .inl ⟨data, decodeDec_decWordOf_reset data⟩
  · exact .inr ⟨data, decodeDec_decWordOf_rx data⟩

/-- Every instruction that a step can fetch: an ENC row, DEC.RESET, the row a first-match decoder reaches for a received byte,
or a unit of the line. -/
theorem fetch_run_cases {inputs : List Input} {i : Instr} (h : (fetch inputs).1 = .run i) :
    (∃ c, i.encCmd = some c) ∨ (∃ data, i = .decReset data) ∨ (∃ b, i = decRxRow b) ∨
    (∃ bytes left, decodeLine bytes = .instr i left) := by
  match inputs with
  | [] | .enc ⟨true, _⟩ :: _ | .enc ⟨false, none⟩ :: _ | .dec ⟨true, _⟩ :: _ | .dec ⟨false, none⟩ :: _
  | .line [] :: _ => cases h
  | .enc ⟨false, some w⟩ :: _ => cases h; exact .inl (decodeEnc_encCmd w)
  | .dec ⟨false, some w⟩ :: _ => cases h; exact .inr ((decodeDec_cases w).imp_right .inl)
  | .line (b :: more) :: _ =>
    cases hline : decodeLine (b :: more) with
    | instr j left =>
      simp only [fetch, fetchLine, hline, Action.run.injEq] at h
      exact .inr (.inr (.inr ⟨_, left, h ▸ hline⟩))
    | rejected e =>
      simp only [fetch, fetchLine, hline, Action.run.injEq] at h
      exact .inr (.inr (.inl ⟨b, h.symm⟩))

/-- The one unit of the line that has a START in it is WIRE.START (R50, R53, R56). -/
theorem eq_wireStart_of_decodeLine {bytes left unit : List Byte} {i : Instr} (h : decodeLine bytes = .instr i left)
    (hunit : i.wireBytes = some unit) (hstart : Config.startByte ∈ unit) : i = .wireStart := by
  obtain ⟨unit', hunit', rfl⟩ := decodeLine_wireBytes h
  cases hunit.symm.trans hunit'
  obtain ⟨b, rfl | rfl⟩ := Machine.wireBytes_cases hunit
  · cases List.mem_singleton.1 hstart
    cases h
    rfl
  · have hb : Config.startByte = b := by simpa [show Config.startByte ≠ Config.escapeByte by decide] using hstart
    subst hb
    cases h

end Sys2Proof

namespace Sys2Proof.Machine

/-! ENC_NO_SPACE (R121). -/

/-- A command of ENC meets ENC_NO_SPACE exactly where its bytes do not fit from its store index on. -/
theorem Enc.cause_eq (e : Enc) (c : EncCmd) :
    e.cause c = if e.cap - c.storeIndex e < c.storeBytes.length then some .encNoSpace else none := by
  cases c with
  | reset => rfl
  | start => simp [Enc.cause, EncCmd.storeIndex, EncCmd.storeBytes]
  | write b => cases hb : isSpecial b <;> simp [Enc.cause, EncCmd.storeIndex, EncCmd.storeBytes, escapeSeq_length, hb]
  | finish => rfl

/-- The condition, command by command. -/
theorem Enc.cause_eq_noSpace_iff (e : Enc) (c : EncCmd) :
    e.cause c = some .encNoSpace ↔
      (c = .start ∧ e.cap = 0) ∨
      (∃ b, c = .write b ∧ isSpecial b = true ∧ e.cap - e.len < 2) ∨
      (∃ b, c = .write b ∧ isSpecial b = false ∧ e.cap - e.len < 1) ∨
      (c = .finish ∧ e.cap - e.len < 1) := by
  cases c with
  | reset => simp [Enc.cause]
  | start => simp [Enc.cause]
  | write b => cases hb : isSpecial b <;> simp [Enc.cause, hb]
  | finish => simp [Enc.cause]

/-- A command whose bytes fit answers ok. -/
theorem Enc.cmd_rsp_of_room {e : Enc} {c : EncCmd} (hroom : c.storeBytes.length ≤ e.cap - c.storeIndex e) :
    (e.cmd c).2 = .ok := by
  obtain ⟨-, h⟩ | h | ⟨hspace, -⟩ := e.cmd_cases c
  · rw [h]
  · rw [h]
  · exact absurd hroom (Nat.not_le.2 hspace)

/-- Settles O27: the condition is that the bytes do not fit, and the append tests just that. -/
theorem encFailsExactlyForLackOfSpace : Obligations.EncFailsExactlyForLackOfSpace := by
  intro i c s hi hlen
  have hiff := s.enc.cause_eq_noSpace_iff c
  by_cases hspace : s.enc.cap - c.storeIndex s.enc < c.storeBytes.length
  · have hcause : s.enc.cause c = some .encNoSpace := by rw [Enc.cause_eq, if_pos hspace]
    exact ⟨_, exec_of_noSpace_unchanged hi hlen hspace, fun _ => rfl, fun hnone => by simp [hcause] at hnone, hiff⟩
  · have hcause : s.enc.cause c = none := by rw [Enc.cause_eq, if_neg hspace]
    refine ⟨_, exec_of_encCmd hi s, fun hsome => by simp [hcause] at hsome, fun _ => ?_, hiff⟩
    rw [State.putEnc_rsp, Enc.cmd_rsp_of_room (Nat.not_lt.1 hspace)]

/-! DEC_OVERFLOW and DEC_BAD_ESCAPE (R122, R123). -/

theorem Dec.cause_of_inMessage {d : Dec} (hst : d.st = .inMessage) (b : Byte) :
    d.cause b = if isSpecial b = true ∨ d.len < d.cap then none else some .decOverflow := by
  cases hb : isSpecial b with
  | false => simp [Dec.cause_of_ordinary hst hb]
  | true =>
    rw [if_pos (.inl rfl)]
    obtain rfl | rfl | rfl := (isSpecial_iff_eq b).1 hb
    · exact Dec.cause_of_escapeByte hst
    · exact Dec.cause_of_endByte hst
    · exact d.cause_of_startByte

theorem Dec.cause_of_inEscape {d : Dec} (hst : d.st = .inEscape) (b : Byte) :
    d.cause b =
      if b = Config.startByte then none
      else if isSpecial (maskByte b) then if d.len < d.cap then none else some .decOverflow
      else some .decBadEscape := by
  split
  next hstart => rw [hstart, Dec.cause_of_startByte]
  next hstart =>
    cases hb : isSpecial (maskByte b) with
    | false => exact Dec.cause_of_badEscape hst hstart hb
    | true => exact Dec.cause_of_escapeCode hst hb

theorem Dec.cause_eq_badEscape_iff (d : Dec) (b : Byte) :
    d.cause b = some .decBadEscape ↔
      d.st = .inEscape ∧ b ≠ Config.startByte ∧ isSpecial (maskByte b) = false := by
  cases hst : d.st with
  | awaitingStart => simp [Dec.cause_of_discard (.inl hst)]
  | error => simp [Dec.cause_of_discard (.inr hst)]
  | inMessage => simp [Dec.cause_of_inMessage hst]
  | inEscape =>
    rw [Dec.cause_of_inEscape hst]
    split
    next hstart => simp [hstart]
    next hstart => cases isSpecial (maskByte b) <;> simp [hstart]

theorem Dec.cause_eq_overflow_iff (d : Dec) (b : Byte) :
    d.cause b = some .decOverflow ↔
      d.cap ≤ d.len ∧
        ((d.st = .inMessage ∧ isSpecial b = false) ∨ (d.st = .inEscape ∧ isSpecial (maskByte b) = true)) := by
  cases hst : d.st with
  | awaitingStart => simp [Dec.cause_of_discard (.inl hst)]
  | error => simp [Dec.cause_of_discard (.inr hst)]
  | inMessage => simp [Dec.cause_of_inMessage hst, and_comm]
  | inEscape =>
    rw [Dec.cause_of_inEscape hst]
    split
    next hstart => simp [hstart, show isSpecial (maskByte Config.startByte) = false by decide]
    next => cases isSpecial (maskByte b) <;> simp

/-- A byte that meets a condition is answered error and changes the state register only (R122, R123). -/
theorem Dec.rx_of_cause {d : Dec} {b : Byte} (h : d.cause b ≠ none) : d.rx b = ({ d with st := .error }, .error) :=
  have herr := Dec.rx_error_iff.2 h
  Prod.ext (Dec.rx_of_error herr) herr

/-- Settles O45: the conditions by state, and in Error the bytes after it are discarded. -/
theorem decoderErrorConditions : Obligations.DecoderErrorConditions := by
  intro i b s hi hlen
  rw [← isSpecial_maskByte_iff, ← isSpecial_iff, Bool.not_eq_true, Bool.not_eq_true]
  refine ⟨s.dec.cause_eq_badEscape_iff b, ?_, fun hcause => ?_⟩
  · rw [Dec.cause_eq_overflow_iff, hlen.ge_iff_eq]
  · refine ⟨_, exec_of_rx hi (Dec.rx_of_cause hcause), rfl, fun bytes hstart => ?_⟩
    obtain ⟨u, hrun, hdec, -⟩ := bytesOtherThanStartLeaveTheReadWindow bytes
      (s.putDec ({ s.dec with st := .error }, .error)) hstart (.inr rfl)
    exact ⟨u, _, hrun, hdec⟩

/-! How Error is left (R127). -/

/-- Received bytes lead out of Error only if there is a START among them (R98). -/
theorem Dec.startByte_mem_of_feed_leaves_error {d : Dec} {bytes : List Byte} (hst : d.st = .error)
    (hleft : (d.feed bytes).1.st ≠ .error) : Config.startByte ∈ bytes := by
  by_contra hstart
  rw [Dec.feed_discard (.inr hst) hstart] at hleft
  exact hleft hst

/-- Settles O46, by what the step fetches; a received byte or a unit of the line leads out of Error only with a START. -/
theorem errorIsLeftOnlyByStartOrReset : Obligations.ErrorIsLeftOnlyByStartOrReset := by
  intro s t hst ht hleft
  unfold step at ht
  cases haction : (fetch s.inputs).1 with
  | idle => rw [haction] at ht; cases ht; exact absurd hst hleft
  | hardReset block =>
    rw [haction] at ht
    cases block with
    | enc => cases ht; exact absurd hst hleft
    | dec => cases ht; exact .inl ⟨rfl, rfl⟩
  | run i =>
    rw [haction, perform] at ht
    obtain ⟨c, hi⟩ | ⟨data, rfl⟩ | ⟨b, rfl⟩ | ⟨bytes, left, hline⟩ := fetch_run_cases haction
    · rw [exec_of_encCmd hi] at ht
      cases ht
      exact absurd hst hleft
    · cases ht
      exact .inr (.inl ⟨⟨data, rfl⟩, rfl⟩)
    · rw [exec_of_rxByte (decRxRow_rxByte b)] at ht
      cases ht
      cases List.mem_singleton.1 (Dec.startByte_mem_of_feed_leaves_error (bytes := [b]) hst hleft)
      exact .inr (.inr ⟨.inl rfl, rfl⟩)
    · obtain ⟨unit, hunit, -⟩ := decodeLine_wireBytes hline
      rw [exec_of_wireBytes hunit] at ht
      cases ht
      obtain rfl := eq_wireStart_of_decodeLine hline hunit (Dec.startByte_mem_of_feed_leaves_error hst hleft)
      cases hunit
      exact .inr (.inr ⟨.inr rfl, rfl⟩)

/-! The blocks do not interfere (R131). -/

/-- After a change of ENC, an instruction that is no ENC row does what it does without that change, and keeps it. -/
theorem exec_putEnc_of_encCmd_none {j : Instr} {s t : State} (hj : j.encCmd = none) (h : exec j s = .next t)
    (r : Enc × EncRsp) : exec j (s.putEnc r) = .next { t with enc := r.1 } := by
  obtain ⟨c, hc, -⟩ | ⟨_, rfl, hexec⟩ | ⟨b, hb, hexec⟩ | ⟨bytes, hbytes, hexec⟩ := exec_cases j s
  · simp [hj] at hc
  all_goals rw [hexec] at h; cases h
  · rfl
  · exact exec_of_rxByte hb _
  · exact exec_of_wireBytes hbytes _

/-- Settles O47: the ENC row finds the same ENC, and the other row does the same, in either order. -/
theorem blocksDoNotInterfere : Obligations.BlocksDoNotInterfere := by
  intro i j s hi hj
  obtain ⟨c, hc⟩ := Option.ne_none_iff_exists'.1 hi
  obtain ⟨t, ht⟩ := exec_completes j s
  obtain ⟨henc, -⟩ := exec_of_encCmd_none hj ht
  refine ⟨_, _, t, _, exec_of_encCmd hc s, exec_putEnc_of_encCmd_none hj ht _, ht, exec_of_encCmd hc t, ?_, rfl, rfl, ?_,
    rfl⟩
  · rw [State.putEnc_enc, henc]
  · rw [State.putEnc_rsp, State.putEnc_rsp, henc]

end Sys2Proof.Machine
end

section
/-! PROOFS. Hardware reset (70_reset_and_hazards.md section 1): it wins over a command presented with it, clears its block and
gives no response. -/

namespace Sys2Proof

/-! Reset wins at the fetch: the command presented with it is not looked at (R150, D19). -/

theorem fetch_enc_rst (cmd : Option EncWord) (rest : List Input) :
    fetch (.enc ⟨true, cmd⟩ :: rest) = (.hardReset .enc, rest) := rfl

theorem fetch_dec_rst (cmd : Option DecWord) (rest : List Input) :
    fetch (.dec ⟨true, cmd⟩ :: rest) = (.hardReset .dec, rest) := rfl

end Sys2Proof

namespace Sys2Proof.Machine

/-- A step that fetches a hardware reset resets that block, with what it fetched taken away. -/
theorem step_of_fetch_hardReset {s : State} {block : Block} {rest : List Input}
    (h : fetch s.inputs = (.hardReset block, rest)) : step s = .next ((s.withInputs rest).hardReset block) := by
  rw [step, h]; rfl

/-- Settles O48: with `rst = 1` a hardware reset is fetched, whatever the command, and it is the clear of its block with no
response. -/
theorem hardwareResetWinsOverACommand : Obligations.HardwareResetWinsOverACommand := by
  refine ⟨fun cmd s => ?_, fun cmd s => ?_⟩
  · exact (step_of_fetch_hardReset (fetch_enc_rst cmd s.inputs)).trans rfl
  · exact (step_of_fetch_hardReset (fetch_dec_rst cmd s.inputs)).trans rfl

end Sys2Proof.Machine
end

section
/-! PROOFS. The round trip (41_decoder.md section 6): what ENC holds after the contract sequence is the frame, and DEC accepts
a frame from every state. -/

namespace Sys2Proof.Machine

/-- Settles O41: the sequence leaves the frame in ENC (O28) and DEC as it was, so DEC still has the room to accept that frame
(O40). -/
theorem roundTripDeliversThePayload : Obligations.RoundTripDeliversThePayload := by
  intro payload s henc hdec
  obtain ⟨t, rs, hsent, htdec, hframe, -⟩ := contractSequenceBuildsTheFrame payload s
  obtain ⟨-, -, hcontents⟩ := hframe henc
  obtain ⟨u, vs, hfed, -, haccept, -⟩ := frameIsAcceptedFromEveryState payload t
  obtain ⟨hrsp, -, hholds⟩ := haccept (by rwa [htdec])
  have hlast : vs.getLast? = some (.dec (.complete payload.length)) := by rw [hrsp, List.getLast?_concat]
  exact ⟨t, rs, frameOf payload, u, vs, hsent, hcontents, hfed, hlast, hholds⟩

end Sys2Proof.Machine
end
